-- ==== Sys2Proof/Word.lean ====
section
/-! DEFINITION. The word types of the machine (00_scope.md R5, R6). Every value is unsigned. -/

namespace Sys2Proof

/-- A byte: a general register, a timer, a key flag, a cell of memory or of the framebuffer. -/
abbrev Byte := BitVec 8

/-- A 16-bit word: an instruction word, `I`, `pc`, a slot of the call stack. -/
abbrev Word := BitVec 16

/-- A 4-bit field of an instruction word: a register number `x` or `y`, or the row count `n`. -/
abbrev Nibble := BitVec 4

/-- The 12-bit field `nnn` of an instruction word. -/
abbrev Imm12 := BitVec 12

end Sys2Proof
end

