-- ==== Sys2Proof/Syntax.lean ====
section
/-! DEFINITION. The instructions: one constructor per row of spec/opcode_table.json, the seven patterns of
30_encoding.md R48 and the nine unsupported families. An operand has exactly the width of its field, so an
operand outside its range cannot be written down. -/

namespace Sys2Proof

/-- One row of the opcode map each. `x`, `y` are register numbers, used directly (30_encoding.md R46); `nn`, `nnn`,
`n` are unsigned immediates; `u` is the low 12 bits of a word of an unsupported family. -/
inductive Instr where
  /-- `1nnn`, R61. -/
  | jp (nnn : Imm12)
  /-- `3xnn`, R62. -/
  | se (x : Nibble) (nn : Byte)
  /-- `6xnn`, R64. -/
  | ldVx (x : Nibble) (nn : Byte)
  /-- `7xnn`, R65. -/
  | add (x : Nibble) (nn : Byte)
  /-- `Annn`, R66. -/
  | ldI (nnn : Imm12)
  /-- `Cxnn`, R68. -/
  | rnd (x : Nibble) (nn : Byte)
  /-- `Dxyn`, R70. -/
  | drw (x y : Nibble) (n : Nibble)
  /-- `0___`, R80. -/
  | unsupported0 (u : Imm12)
  /-- `2___`, R80. -/
  | unsupported2 (u : Imm12)
  /-- `4___`, R80. -/
  | unsupported4 (u : Imm12)
  /-- `5___`, R80. -/
  | unsupported5 (u : Imm12)
  /-- `8___`, R80. -/
  | unsupported8 (u : Imm12)
  /-- `9___`, R80. -/
  | unsupported9 (u : Imm12)
  /-- `B___`, R80. -/
  | unsupportedB (u : Imm12)
  /-- `E___`, R80. -/
  | unsupportedE (u : Imm12)
  /-- `F___`, R80. -/
  | unsupportedF (u : Imm12)
  deriving DecidableEq, Repr

end Sys2Proof
end

