-- ==== Sys2Proof/Decode.lean ====
section
/-! DEFINITION. Decoding, total on any bytes, and encoding (30_encoding.md R43 to R51). -/

namespace Sys2Proof

/-- `op`, bits 15:12, the family selector (R44). -/
def fieldOp (w : Word) : Nibble := w.extractLsb' 12 4

/-- `x`, bits 11:8 (R44). -/
def fieldX (w : Word) : Nibble := w.extractLsb' 8 4

/-- `y`, bits 7:4 (R44). -/
def fieldY (w : Word) : Nibble := w.extractLsb' 4 4

/-- `n`, bits 3:0 (R44). -/
def fieldN (w : Word) : Nibble := w.extractLsb' 0 4

/-- `nn`, bits 7:0 (R44). -/
def fieldNN (w : Word) : Byte := w.extractLsb' 0 8

/-- `nnn`, bits 11:0 (R44). -/
def fieldNNN (w : Word) : Imm12 := w.extractLsb' 0 12

/-- Decode of one instruction word: the map of R48, keyed by `op` alone (R47). The sixteen families are listed; the
last arm is `op` = 0xF, the one value left. -/
def decodeWord (w : Word) : Instr :=
  match fieldOp w with
  | 0x0#4 => .unsupported0 (fieldNNN w)
  | 0x1#4 => .jp (fieldNNN w)
  | 0x2#4 => .unsupported2 (fieldNNN w)
  | 0x3#4 => .se (fieldX w) (fieldNN w)
  | 0x4#4 => .unsupported4 (fieldNNN w)
  | 0x5#4 => .unsupported5 (fieldNNN w)
  | 0x6#4 => .ldVx (fieldX w) (fieldNN w)
  | 0x7#4 => .add (fieldX w) (fieldNN w)
  | 0x8#4 => .unsupported8 (fieldNNN w)
  | 0x9#4 => .unsupported9 (fieldNNN w)
  | 0xA#4 => .ldI (fieldNNN w)
  | 0xB#4 => .unsupportedB (fieldNNN w)
  | 0xC#4 => .rnd (fieldX w) (fieldNN w)
  | 0xD#4 => .drw (fieldX w) (fieldY w) (fieldN w)
  | 0xE#4 => .unsupportedE (fieldNNN w)
  | _ => .unsupportedF (fieldNNN w)

/-- Why bytes hold no instruction. -/
inductive DecodeError where
  /-- Fewer than the two bytes of an instruction (R43). -/
  | truncated
  deriving DecidableEq, Repr

/-- The big-endian word of two bytes, the first at the lower address (20_memory.md R32). -/
def wordOfBytes (hi lo : Byte) : Word := hi ++ lo

/-- Decode the instruction at the head of a byte string, with the bytes after it. -/
def decode : List Byte → Except DecodeError (Instr × List Byte)
  | hi :: lo :: rest => .ok (decodeWord (wordOfBytes hi lo), rest)
  | [_] => .error .truncated
  | [] => .error .truncated

/-- The word of an instruction, from the formats of R45 and the match values of R48. -/
def encode : Instr → Word
  | .jp nnn => 0x1#4 ++ nnn
  | .se x nn => 0x3#4 ++ x ++ nn
  | .ldVx x nn => 0x6#4 ++ x ++ nn
  | .add x nn => 0x7#4 ++ x ++ nn
  | .ldI nnn => 0xA#4 ++ nnn
  | .rnd x nn => 0xC#4 ++ x ++ nn
  | .drw x y n => 0xD#4 ++ x ++ y ++ n
  | .unsupported0 u => 0x0#4 ++ u
  | .unsupported2 u => 0x2#4 ++ u
  | .unsupported4 u => 0x4#4 ++ u
  | .unsupported5 u => 0x5#4 ++ u
  | .unsupported8 u => 0x8#4 ++ u
  | .unsupported9 u => 0x9#4 ++ u
  | .unsupportedB u => 0xB#4 ++ u
  | .unsupportedE u => 0xE#4 ++ u
  | .unsupportedF u => 0xF#4 ++ u

/-- The two bytes of a word as memory holds them, bits 15:8 at the lower address (20_memory.md R32). -/
def bytesOfWord (w : Word) : List Byte := [w.extractLsb' 8 8, w.extractLsb' 0 8]

/-- The bytes of an instruction. -/
def encodeBytes (i : Instr) : List Byte := bytesOfWord (encode i)

/-- The `match` column of the opcode map (R48): the bits of the row's family, its operand bits zero. -/
def Instr.matchBits : Instr → Word
  | .jp _ => 0x1000#16
  | .se _ _ => 0x3000#16
  | .ldVx _ _ => 0x6000#16
  | .add _ _ => 0x7000#16
  | .ldI _ => 0xA000#16
  | .rnd _ _ => 0xC000#16
  | .drw _ _ _ => 0xD000#16
  | .unsupported0 _ => 0x0000#16
  | .unsupported2 _ => 0x2000#16
  | .unsupported4 _ => 0x4000#16
  | .unsupported5 _ => 0x5000#16
  | .unsupported8 _ => 0x8000#16
  | .unsupported9 _ => 0x9000#16
  | .unsupportedB _ => 0xB000#16
  | .unsupportedE _ => 0xE000#16
  | .unsupportedF _ => 0xF000#16

/-- The word whose bits `nbits` bits of the opcode table's numbering give; every bit above them is 0. -/
def tableWord (nbits w : Nat) : Word := BitVec.ofNat 16 (w % 2 ^ nbits)

/-- The instruction the decoder reads from the bits `w` of an opcode-table row, laid out as memory holds them. An
instruction has 16 bits (R43), so more of them are refused. -/
def decodeTableWord (nbits w : Nat) : Option Instr :=
  if nbits ≤ 16 then
    match decode (bytesOfWord (tableWord nbits w)) with
    | .ok (i, []) => some i
    | .ok (_, _ :: _) => none
    | .error _ => none
  else none

end Sys2Proof
end

