-- ==== Sys2Proof/Config.lean ====
section
/-! DEFINITION. The implementation parameters of 00_scope.md R5 that the source fixes, and the one free value.
`FONT`, the one parameter left open, is an argument of the host moves (Sys2Proof/Machine/HostMoves.lean), its default
in Sys2Proof/Machine/Memory.lean; `PIXEL_ON` is in Sys2Proof/Machine/Framebuffer.lean. -/

namespace Sys2Proof.Config

/-- `MEM_SIZE`: bytes of main memory; the valid addresses are 0 to 4095 (R5, R9). -/
def memSize : Nat := 4096

/-- `PROG_BASE`: where a program image is loaded, and `pc` after `Init`. -/
def progBase : Nat := 0x200

/-- `PROG_MAX`: the largest program image, `MEM_SIZE - PROG_BASE`. -/
def progMax : Nat := 3584

/-- `FONT_BASE`: the first byte of the font glyph table. -/
def fontBase : Nat := 0x050

/-- `FONT_LEN`: 16 glyphs of 5 bytes. -/
def fontLen : Nat := 80

/-- The type of the parameter `FONT[0..79]` (R5, 20_memory.md R29): the model takes a value of it as an argument
wherever a font is installed. -/
abbrev Font : Type := Vector Byte 80

/-- `FB_W`: framebuffer width in pixels. -/
def fbW : Nat := 64

/-- `FB_H`: framebuffer height in pixels. -/
def fbH : Nat := 32

/-- `SPRITE_W`: sprite width in pixels. -/
def spriteW : Nat := 8

/-- The random source (10_state.md R22, 43_random.md R69): the byte of the `k`-th draw. A free value, with no
body: no rule constrains the bytes, so no proof can see one (log 3). -/
opaque rand8 : Nat → Byte

end Sys2Proof.Config
end

