-- ==== Sys2Proof/Machine/Cells.lean ====
section
/-! DEFINITION. A byte array held as the list of its cells that differ from a background: how memory and the
framebuffer are held. Equal arrays are equal lists on the canonical form `cellsWf`. The laws of reading and writing
(Sys2Proof/Laws/Cells.lean) hold of every list. -/

namespace Sys2Proof.Machine

/-- The byte at `a`: the first cell listed for it, or the background. -/
def cellsGet (bg : Nat → Byte) : List Host.Cell → Nat → Byte
  | [], a => bg a
  | c :: cs, a => if c.1 = a then c.2 else cellsGet bg cs a

/-- Put a cell where its address belongs in the rising order. -/
def cellsInsert (c : Host.Cell) : List Host.Cell → List Host.Cell
  | [] => [c]
  | d :: ds => if c.1 < d.1 then c :: d :: ds else d :: cellsInsert c ds

/-- Write `b` at `a`: what was listed for `a` goes, and `b` is listed unless the background already reads as it. -/
def cellsSet (bg : Nat → Byte) (cs : List Host.Cell) (a : Nat) (b : Byte) : List Host.Cell :=
  let others := cs.filter fun c => c.1 ≠ a
  if b = bg a then others else cellsInsert (a, b) others

/-- The canonical form: addresses strictly rising and below `size`, and no cell equal to the background. -/
def cellsWf (bg : Nat → Byte) (size : Nat) (cs : List Host.Cell) : Bool :=
  decide (cs.Pairwise fun c d => c.1 < d.1) && cs.all fun c => decide (c.1 < size) && decide (c.2 ≠ bg c.1)

end Sys2Proof.Machine
end

