-- ==== Sys2Proof/Machine/State.lean ====
section
/-! DEFINITION. The state of the core (10_state.md R10), its reset value (R24), and the reasons a cycle stops. -/

namespace Sys2Proof.Machine

/-- The complete state of the core (10_state.md R10), and one field of the model's own, `draws`. -/
structure State where
  /-- `MEM[0..4095]` (R21): the bytes that differ from the reset contents, in the canonical form of `memWf`. -/
  mem : List Host.Cell
  /-- `V0` to `VF` (R11, R12). -/
  v : Vector Byte 16
  /-- The index register `I` (R13). -/
  i : Word
  /-- The program counter (R14). -/
  pc : Word
  /-- `STACK[0..15]`: storage only (R16). -/
  stack : Vector Word 16
  /-- The stack pointer `SP`: storage only (R16). -/
  sp : Byte
  /-- The delay timer `DT` (R17). -/
  dt : Byte
  /-- The sound timer `ST` (R17). -/
  st : Byte
  /-- `KEY[0..15]` (R18). -/
  key : Vector Byte 16
  /-- `FB[0..63, 0..31]` (R19), row-major: the cells that are not 0, in the canonical form of `fbWf`. -/
  fb : List Host.Cell
  /-- The redraw flag `DRAW` (R20). -/
  redraw : Bool
  /-- THE MODEL'S OWN field: how many bytes have been drawn from the random source of R22. The next one is
  `Config.rand8 draws`, a free value (log 3). -/
  draws : Nat
  deriving DecidableEq, Repr

/-- Why a cycle fails (60_exceptions.md R79). The failing cycle changes no state (40_cycle.md R59), so a fault
carries the error result alone, and the run ends there (70_reset_and_hazards.md R106). `LoadError` is no error of a
cycle; it is a result of the host move `Load`. -/
inductive Fault where
  /-- `InvalidAddress(a)`: raised by the fetch when `pc` or `pc + 1` is 4096 or more, and by `Dxyn` when the sprite
  would extend past the end of memory (R81, R82). It is the spec's own stop. That nothing has changed when it is
  raised is the spec's choice where the source is silent (log 4, log 5): unsafe there. -/
  | invalidAddress (a : Nat)
  /-- `UnsupportedOpcode(word, address)`: raised by the nine unsupported families with the word and the address it was
  fetched from (R80). It is the spec's own stop; safe. -/
  | unsupportedOpcode (word address : Word)
  deriving DecidableEq, Repr

/-- Why the model gives an instruction no meaning. Every instruction has one, so no step answers a refusal. -/
inductive Refusal where
  /-- Raised by an arm of `exec` whose instruction has no meaning yet: none in this model. Safe. -/
  | notModelled (mnemonic : String)
  deriving DecidableEq, Repr

/-- The state after `Init` (10_state.md R24, 70_reset_and_hazards.md R100). Memory lists nothing: an unlisted address
reads as the reset contents, the font table and zeros (`resetByte`). `draws` is the model's own (log 3). -/
def State.reset : State where
  mem := []
  v := Vector.replicate 16 0#8
  i := 0#16
  pc := 0x200#16
  stack := Vector.replicate 16 0#16
  sp := 0#8
  dt := 0#8
  st := 0#8
  key := Vector.replicate 16 0#8
  fb := []
  redraw := false
  draws := 0

end Sys2Proof.Machine
end

