-- ==== Sys2Proof/Machine/Memory.lean ====
section
/-! DEFINITION. Main memory (20_memory.md): its reset contents with the font table, and its reads and writes. -/

namespace Sys2Proof.Machine

/-- The default of the parameter `FONT` (20_memory.md R29). PRESUMED: the source lost its list of bytes, and the spec
supplies the customary ones from general knowledge (log 1). Unsafe. -/
def fontTable : List Byte :=
  [0xF0, 0x90, 0x90, 0x90, 0xF0] ++ [0x20, 0x60, 0x20, 0x20, 0x70] ++
  [0xF0, 0x10, 0xF0, 0x80, 0xF0] ++ [0xF0, 0x10, 0xF0, 0x10, 0xF0] ++
  [0x90, 0x90, 0xF0, 0x10, 0x10] ++ [0xF0, 0x80, 0xF0, 0x10, 0xF0] ++
  [0xF0, 0x80, 0xF0, 0x90, 0xF0] ++ [0xF0, 0x10, 0x20, 0x40, 0x40] ++
  [0xF0, 0x90, 0xF0, 0x90, 0xF0] ++ [0xF0, 0x90, 0xF0, 0x10, 0xF0] ++
  [0xF0, 0x90, 0xF0, 0x90, 0x90] ++ [0xE0, 0x90, 0xE0, 0x90, 0xE0] ++
  [0xF0, 0x80, 0x80, 0x80, 0xF0] ++ [0xE0, 0x90, 0x90, 0x90, 0xE0] ++
  [0xF0, 0x80, 0xF0, 0x80, 0xF0] ++ [0xF0, 0x80, 0xF0, 0x80, 0x80]

/-- What an unlisted address reads as: the contents after `Init` (10_state.md R24), the font at 0x050 to 0x09F and
zero everywhere else (20_memory.md R28). -/
def resetByte (a : Nat) : Byte :=
  if Config.fontBase ≤ a ∧ a < Config.fontBase + Config.fontLen then fontTable.getD (a - Config.fontBase) 0#8 else 0#8

/-- `MEM[a]`, with no check (00_scope.md R7). -/
def memByte (m : List Host.Cell) (a : Nat) : Byte := cellsGet resetByte m a

/-- `MEM[a] <- b`: used by `Init` and `Load` alone, for no instruction stores (20_memory.md R31). -/
def memSet (m : List Host.Cell) (a : Nat) (b : Byte) : List Host.Cell := cellsSet resetByte m a b

/-- Bytes written upward from `a`, one after the other (70_reset_and_hazards.md R100, R103). -/
def memSetBytes (m : List Host.Cell) (a : Nat) : List Byte → List Host.Cell
  | [] => m
  | b :: bs => memSetBytes (memSet m a b) (a + 1) bs

/-- `len` bytes read upward from `a`, with no check. -/
def memBytes (m : List Host.Cell) (a len : Nat) : List Byte := (List.range len).map fun k => memByte m (a + k)

/-- The canonical form of memory. -/
def memWf (m : List Host.Cell) : Bool := cellsWf resetByte Config.memSize m

/-- `MemRead(addr, 1)` (20_memory.md R30). -/
def memRead1 (m : List Host.Cell) (a : Nat) : Except Fault Byte :=
  if a ≥ Config.memSize then .error (.invalidAddress a) else .ok (memByte m a)

/-- `MemRead(addr, 2)`, big-endian, `addr + 1` taken without wrap-around (R30, R32). -/
def memRead2 (m : List Host.Cell) (a : Nat) : Except Fault Word :=
  if a ≥ Config.memSize then .error (.invalidAddress a)
  else if a + 1 ≥ Config.memSize then .error (.invalidAddress (a + 1))
  else .ok (memByte m a ++ memByte m (a + 1))

end Sys2Proof.Machine
end

