-- ==== Sys2Proof/Machine/Ops.lean ====
section
/-! DEFINITION. The named operations the meanings share: registers, the program counter, the random source, the fetch,
and raising an error. -/

namespace Sys2Proof.Machine

/-- `V[x]` (10_state.md R11): the register number is the field itself; no register is special. -/
def State.getV (s : State) (x : Nibble) : Byte := s.v[x.toNat]'(by have := x.isLt; omega)

/-- `V[x] <- b` (10_state.md R11). -/
def State.setV (s : State) (x : Nibble) (b : Byte) : State :=
  { s with v := s.v.set x.toNat b (by have := x.isLt; omega) }

/-- `I <- a` (10_state.md R13). -/
def State.setI (s : State) (a : Word) : State := { s with i := a }

/-- `pc <- a` (40_cycle.md R57). -/
def State.setPc (s : State) (a : Word) : State := { s with pc := a }

/-- `pc <- pc + k`: 16-bit, not reduced modulo 4096 (40_cycle.md R57; log 12). -/
def State.advance (s : State) (k : Word) : State := { s with pc := s.pc + k }

/-- The framebuffer replaced. -/
def State.setFb (s : State) (fb : List Host.Cell) : State := { s with fb := fb }

/-- `rand8`, the next byte of the random source: a free value (43_random.md R69; log 3). -/
def State.nextDraw (s : State) : Byte := Config.rand8 s.draws

/-- One draw is consumed (43_random.md R68). -/
def State.consumeDraw (s : State) : State := { s with draws := s.draws + 1 }

/-- The fetch: `MemRead(pc, 2)`, at an even or an odd `pc` (40_cycle.md R55, 20_memory.md R33). -/
def fetch (s : State) : Except Fault Word := memRead2 s.mem s.pc.toNat

/-- Taking an exception, the one shared operation. On this hardware an error is the result handed to the host: the core
saves nothing, switches no mode, transfers control nowhere and leaves the state as it was (60_exceptions.md R87,
40_cycle.md R59). So the machine stops with the error, and the state is the one before the cycle, which the caller
still holds (`cycle` in Sys2Proof/Machine/HostMoves.lean hands it back). There is no return from it: nothing was saved
(R88), and a host that calls again meets the same error. -/
def raise (e : Fault) : Host.Outcome State Fault Refusal := .fault e

end Sys2Proof.Machine
end

