-- ==== Sys2Proof/Machine/Operands.lean ====
section
/-! DEFINITION. The operand forms (30_encoding.md R46): unsigned immediates, zero-extended and never scaled; registers
by number (`State.getV`); and the implicit operands of `Dxyn`, the sprite rows at `I` and the pixel coordinates. -/

namespace Sys2Proof.Machine

/-- `zext_16(nnn)` (30_encoding.md R46). -/
def zext16 (nnn : Imm12) : Word := nnn.setWidth 16

/-- The sprite's rows, addresses `I` to `I + n - 1`, lie in memory: `I + n <= 4096`, the sum taken without wrap-around
and `I` at its full 16 bits (44_sprite_draw.md R72). -/
def spriteInBounds (s : State) (n : Nibble) : Bool := decide (s.i.toNat + n.toNat ≤ Config.memSize)

/-- The byte of sprite row `row`, `MEM[I + row]` (44_sprite_draw.md R70). -/
def spriteRow (s : State) (row : Nat) : Byte := memByte s.mem (s.i.toNat + row)

/-- The column of sprite bit `col` at origin column `ox`: it wraps modulo 64 (44_sprite_draw.md R74). -/
def pixelCol (ox : Byte) (col : Nat) : Nat := (ox.toNat + col) % Config.fbW

/-- The screen row of sprite row `row` at origin row `oy`: it wraps modulo 32 (44_sprite_draw.md R74). -/
def pixelRow (oy : Byte) (row : Nat) : Nat := (oy.toNat + row) % Config.fbH

/-- Bit `col` of a sprite row, scanned from the left: bit 7 is the leftmost column (44_sprite_draw.md R70). -/
def spriteBit (b : Byte) (col : Nat) : Bool := b.getLsbD (7 - col)

end Sys2Proof.Machine
end

