-- ==== Sys2Proof/Machine/ControlFlow.lean ====
section
/-! DEFINITION. Control transfer (41_control_flow.md). -/

namespace Sys2Proof.Machine

/-- `1nnn`: `pc <- zext_16(nnn)`; the target is not checked (R61). -/
def execJp (nnn : Imm12) (s : State) : Host.Outcome State Fault Refusal :=
  .next (s.setPc (zext16 nnn))

/-- `3xnn`: skip the next instruction if `V[x] == nn` (R62). -/
def execSe (x : Nibble) (nn : Byte) (s : State) : Host.Outcome State Fault Refusal :=
  .next (if s.getV x = nn then s.advance 4#16 else s.advance 2#16)

end Sys2Proof.Machine
end

