-- ==== Sys2Proof/Machine/Random.lean ====
section
/-! DEFINITION. Random number (43_random.md). -/

namespace Sys2Proof.Machine

/-- `Cxnn` for the draw `d`: `V[x] <- d & nn` (R68). -/
def randomize (d : Byte) (x : Nibble) (nn : Byte) (s : State) : State := (s.setV x (d &&& nn)).advance 2#16

/-- `Cxnn`: the byte is this cycle's draw, a free value, and one draw is consumed (R68, R69; log 3). -/
def execRnd (x : Nibble) (nn : Byte) (s : State) : Host.Outcome State Fault Refusal :=
  .next (randomize s.nextDraw x nn s).consumeDraw

end Sys2Proof.Machine
end

