-- ==== Sys2Proof/Machine/RegisterOps.lean ====
section
/-! DEFINITION. Register loads and arithmetic (42_register_ops.md). -/

namespace Sys2Proof.Machine

/-- `6xnn`: `V[x] <- nn` (R64). -/
def execLdVx (x : Nibble) (nn : Byte) (s : State) : Host.Outcome State Fault Refusal :=
  .next ((s.setV x nn).advance 2#16)

/-- `7xnn`: `V[x] <- (V[x] + nn) mod 256`, no flag (R65). -/
def execAdd (x : Nibble) (nn : Byte) (s : State) : Host.Outcome State Fault Refusal :=
  .next ((s.setV x (s.getV x + nn)).advance 2#16)

/-- `Annn`: `I <- zext_16(nnn)` (R66). -/
def execLdI (nnn : Imm12) (s : State) : Host.Outcome State Fault Refusal :=
  .next ((s.setI (zext16 nnn)).advance 2#16)

end Sys2Proof.Machine
end

