-- ==== Sys2Proof/Machine/Flags.lean ====
section
/-! DEFINITION. The flags: the collision flag in `VF` (10_state.md R12) and the redraw flag `DRAW` (R20). There is no
carry, no borrow and no other condition code. -/

namespace Sys2Proof.Machine

/-- The byte `VF` holds after a draw: exactly 0 or 1 (44_sprite_draw.md R75). -/
def collisionByte (hit : Bool) : Byte := if hit then 1#8 else 0#8

/-- Write the collision flag to `VF`. -/
def State.setCollision (s : State) (hit : Bool) : State := s.setV 0xF#4 (collisionByte hit)

/-- `DRAW <- 1` (44_sprite_draw.md R76). -/
def State.setRedraw (s : State) : State := { s with redraw := true }

end Sys2Proof.Machine
end

