-- ==== Sys2Proof/Machine/Framebuffer.lean ====
section
/-! DEFINITION. The framebuffer: 64 x 32 cells of one byte, 0 off and non-zero on, row-major (10_state.md R19,
20_memory.md R41). -/

namespace Sys2Proof.Machine

/-- `PIXEL_ON`, the byte stored for a lit pixel (44_sprite_draw.md R77): the spec's decision D10 (log 9). -/
def pixelOn : Byte := 1#8

/-- A blank framebuffer is off everywhere: what an unlisted cell reads as (10_state.md R24). -/
def blankByte (_ : Nat) : Byte := 0#8

/-- The place of column `px`, row `py` in the row-major array: `py * 64 + px` (20_memory.md R41). -/
def fbIndex (px py : Nat) : Nat := py * Config.fbW + px

/-- `FB[px, py]`. -/
def pixel (fb : List Host.Cell) (px py : Nat) : Byte := cellsGet blankByte fb (fbIndex px py)

/-- `FB[px, py] <- b`. -/
def setPixel (fb : List Host.Cell) (px py : Nat) (b : Byte) : List Host.Cell :=
  cellsSet blankByte fb (fbIndex px py) b

/-- The canonical form of the framebuffer. -/
def fbWf (fb : List Host.Cell) : Bool := cellsWf blankByte (Config.fbW * Config.fbH) fb

/-- Every listed cell holds `PIXEL_ON`: the cells of a reachable framebuffer are 0 or 1 (10_state.md R19). -/
def fbLitIsOne (fb : List Host.Cell) : Bool := fb.all fun c => decide (c.2 = pixelOn)

/-- The whole array as the host reads it: 2048 bytes, element `py * 64 + px` (20_memory.md R41). -/
def fbBytes (fb : List Host.Cell) : List Byte :=
  (List.range (Config.fbW * Config.fbH)).map fun k => cellsGet blankByte fb k

end Sys2Proof.Machine
end

