-- ==== Sys2Proof/Machine/Sprite.lean ====
section
/-! DEFINITION. Sprite draw and collision detection (44_sprite_draw.md). The loops run as R70 writes them; a draw in
progress is the framebuffer so far and whether a lit pixel has been turned off. -/

namespace Sys2Proof.Machine

/-- The pixel rule for a sprite bit that is 1 (R75): an on cell goes off and is a collision, an off cell goes on. -/
def togglePixel (px py : Nat) (p : List Host.Cell × Bool) : List Host.Cell × Bool :=
  if pixel p.1 px py ≠ 0#8 then (setPixel p.1 px py 0#8, true) else (setPixel p.1 px py pixelOn, p.2)

/-- One sprite row `b`, columns 0 to 7; where the bit is 0 the cell is not touched (R70, R75). -/
def drawRow (ox oy : Byte) (row : Nat) (b : Byte) (p : List Host.Cell × Bool) : List Host.Cell × Bool :=
  (List.range Config.spriteW).foldl
    (fun q col => if spriteBit b col then togglePixel (pixelCol ox col) (pixelRow oy row) q else q) p

/-- Rows 0 to `n - 1` of the sprite whose row `r` is the byte `rows r`; none when `n` is 0 (R70, R73). -/
def drawSprite (ox oy : Byte) (rows : Nat → Byte) (n : Nat) (p : List Host.Cell × Bool) : List Host.Cell × Bool :=
  (List.range n).foldl (fun q row => drawRow ox oy row (rows row) q) p

/-- The draw of `Dxyn` at state `s`: the origin is read before `VF` is written (R71; log 6). -/
def spriteDrawn (x y n : Nibble) (s : State) : List Host.Cell × Bool :=
  drawSprite (s.getV x) (s.getV y) (spriteRow s) n.toNat (s.fb, false)

/-- `Dxyn` (R70). The bounds are checked before any effect (R72; log 5); `VF` and `DRAW` are written by every
successful draw, that of no rows too (R73, R76; log 7, log 8). -/
def execDrw (x y n : Nibble) (s : State) : Host.Outcome State Fault Refusal :=
  if spriteInBounds s n then
    .next ((((s.setCollision (spriteDrawn x y n s).2).setFb (spriteDrawn x y n s).1).setRedraw).advance 2#16)
  else raise (.invalidAddress Config.memSize)

end Sys2Proof.Machine
end

