-- ==== Sys2Proof/Machine/Unsupported.lean ====
section
/-! DEFINITION. The nine unsupported families (30_encoding.md R49, 60_exceptions.md R80): every word of them fails with
`UnsupportedOpcode`, whatever its low 12 bits, and changes nothing. -/

namespace Sys2Proof.Machine

/-- `raise UnsupportedOpcode(w, pc)` for the word of family `op` with the low bits `u`; `pc` is still the address the
word was fetched from (40_cycle.md R56). -/
def raiseUnsupported (op : Nibble) (u : Imm12) (s : State) : Host.Outcome State Fault Refusal :=
  raise (.unsupportedOpcode (op ++ u) s.pc)

/-- `0___` (R80). -/
def execUnsupported0 (u : Imm12) (s : State) : Host.Outcome State Fault Refusal := raiseUnsupported 0x0#4 u s

/-- `2___` (R80). -/
def execUnsupported2 (u : Imm12) (s : State) : Host.Outcome State Fault Refusal := raiseUnsupported 0x2#4 u s

/-- `4___` (R80). -/
def execUnsupported4 (u : Imm12) (s : State) : Host.Outcome State Fault Refusal := raiseUnsupported 0x4#4 u s

/-- `5___` (R80). -/
def execUnsupported5 (u : Imm12) (s : State) : Host.Outcome State Fault Refusal := raiseUnsupported 0x5#4 u s

/-- `8___` (R80). -/
def execUnsupported8 (u : Imm12) (s : State) : Host.Outcome State Fault Refusal := raiseUnsupported 0x8#4 u s

/-- `9___` (R80). -/
def execUnsupported9 (u : Imm12) (s : State) : Host.Outcome State Fault Refusal := raiseUnsupported 0x9#4 u s

/-- `B___` (R80). -/
def execUnsupportedB (u : Imm12) (s : State) : Host.Outcome State Fault Refusal := raiseUnsupported 0xB#4 u s

/-- `E___` (R80). -/
def execUnsupportedE (u : Imm12) (s : State) : Host.Outcome State Fault Refusal := raiseUnsupported 0xE#4 u s

/-- `F___` (R80). -/
def execUnsupportedF (u : Imm12) (s : State) : Host.Outcome State Fault Refusal := raiseUnsupported 0xF#4 u s

end Sys2Proof.Machine
end

