-- ==== Sys2Proof/Machine/Dispatch.lean ====
section
/-! DEFINITION. The dispatch from an instruction to its meaning, one arm per row of the opcode table. A meaning is the
execute step and the program-counter update of 40_cycle.md R57; the timer tick is `step`'s. -/

namespace Sys2Proof.Machine

def exec (i : Instr) (s : State) : Host.Outcome State Fault Refusal :=
  match i with
  | .jp nnn => Sys2Proof.Machine.execJp nnn s
  | .se x nn => Sys2Proof.Machine.execSe x nn s
  | .ldVx x nn => Sys2Proof.Machine.execLdVx x nn s
  | .add x nn => Sys2Proof.Machine.execAdd x nn s
  | .ldI nnn => Sys2Proof.Machine.execLdI nnn s
  | .rnd x nn => Sys2Proof.Machine.execRnd x nn s
  | .drw x y n => Sys2Proof.Machine.execDrw x y n s
  | .unsupported0 u => Sys2Proof.Machine.execUnsupported0 u s
  | .unsupported2 u => Sys2Proof.Machine.execUnsupported2 u s
  | .unsupported4 u => Sys2Proof.Machine.execUnsupported4 u s
  | .unsupported5 u => Sys2Proof.Machine.execUnsupported5 u s
  | .unsupported8 u => Sys2Proof.Machine.execUnsupported8 u s
  | .unsupported9 u => Sys2Proof.Machine.execUnsupported9 u s
  | .unsupportedB u => Sys2Proof.Machine.execUnsupportedB u s
  | .unsupportedE u => Sys2Proof.Machine.execUnsupportedE u s
  | .unsupportedF u => Sys2Proof.Machine.execUnsupportedF u s

end Sys2Proof.Machine
end

