-- ==== Sys2Proof/Machine/Timers.lean ====
section
/-! DEFINITION. The timer tick and the audio signals (60_exceptions.md R90, R91). -/

namespace Sys2Proof.Machine

/-- One timer's tick: down by 1 unless it is 0, so it never underflows (R90). -/
def countDown (t : Byte) : Byte := if t ≠ 0#8 then t - 1#8 else t

/-- The timer tick at the end of every successful cycle (40_cycle.md R58). -/
def tick (s : State) : State := { s with dt := countDown s.dt, st := countDown s.st }

/-- The end of a cycle: a successful instruction is followed by exactly one tick, a failed one by none (40_cycle.md R58,
R59; log 4, log 23). -/
def endCycle : Host.Outcome State Fault Refusal → Host.Outcome State Fault Refusal
  | .next t => .next (tick t)
  | .fault e => .fault e
  | .refused r => .refused r

/-- `beep_active`, from the sound timer before the tick (R91). -/
def beepActive (s : State) : Bool := decide (s.st ≠ 0#8)

/-- `beep_stop`, from the sound timer before the tick (R91). -/
def beepStop (s : State) : Bool := decide (s.st = 1#8)

end Sys2Proof.Machine
end

