-- ==== Sys2Proof/Machine/Step.lean ====
section
/-! DEFINITION. One cycle as a step: fetch, decode, execute and update `pc`, tick (40_cycle.md R54, R60). -/

namespace Sys2Proof.Machine

/-- `Cycle` as a state transition (R60). The audio signals of a cycle and the unchanged state of a failed one are
given by `cycle` in Sys2Proof/Machine/HostMoves.lean. -/
def step (s : State) : Host.Outcome State Fault Refusal :=
  match fetch s with
  | .error e => raise e
  | .ok w => endCycle (exec (decodeWord w) s)

/-- `s` with the instruction of an opcode-table row stored where `step` fetches next, `pc` and `pc + 1`. A `pc` no fetch
can succeed at (above 4094) is set to the entry point first. It stands for the host's `Load` (log 16). -/
def State.withFetchWord (s : State) (nbits w : Nat) : State :=
  let at' : Word := if s.pc.toNat + 1 < Config.memSize then s.pc else BitVec.ofNat 16 Config.progBase
  { s with pc := at', mem := memSetBytes s.mem at'.toNat (bytesOfWord (tableWord nbits w)) }

end Sys2Proof.Machine
end

