-- ==== Sys2Proof/WellFormed.lean ====
section
/-! DEFINITION. What the spec asks of an instruction and of a program image. The types of the operands already carry
their ranges, so two checks remain: that an instruction is one of the seven implemented patterns (30_encoding.md
R47, R49), and that an image fits the program region (70_reset_and_hazards.md R103, R104). -/

namespace Sys2Proof

/-- `i` is one of the seven implemented patterns. The nine unsupported families are rows of the opcode table, and
their words are encoded, decoded and given the fault of R80, but they are no instruction of a program. -/
def Instr.isImplemented : Instr → Bool
  | .jp _ => true
  | .se _ _ => true
  | .ldVx _ _ => true
  | .add _ _ => true
  | .ldI _ => true
  | .rnd _ _ => true
  | .drw _ _ _ => true
  | .unsupported0 _ => false
  | .unsupported2 _ => false
  | .unsupported4 _ => false
  | .unsupported5 _ => false
  | .unsupported8 _ => false
  | .unsupported9 _ => false
  | .unsupportedB _ => false
  | .unsupportedE _ => false
  | .unsupportedF _ => false

/-- An instruction a program may hold. -/
def Instr.wf (i : Instr) : Bool := i.isImplemented

/-- An image that `Load` accepts: at most `PROG_MAX` bytes, any bytes, any parity, the empty one too (R103). -/
def imageWf (image : List Byte) : Bool := decide (image.length ≤ Config.progMax)

end Sys2Proof
end

