-- ==== Sys2Proof/Machine/HostMoves.lean ====
section
/-! DEFINITION. The host's side: the result of a cycle (00_scope.md R8) and the closed list of host moves
(10_state.md R26), each of which happens between two cycles (20_memory.md R38; log 15). -/

namespace Sys2Proof.Machine

/-- What `Cycle` returns to the host (00_scope.md R8). -/
inductive CycleResult where
  /-- The instruction executed and the timers ticked; the two audio signals of 60_exceptions.md R91. -/
  | ok (beepActive beepStop : Bool)
  /-- The cycle failed and the state is what it was before the call. -/
  | err (e : Fault)
  /-- An instruction without a meaning: no cycle of this model answers it. -/
  | refused (r : Refusal)
  deriving DecidableEq, Repr

/-- `Cycle` with its result and the state after the call (40_cycle.md R54): a failed cycle returns the state it was
given (R59; log 4), and the audio signals are read off the sound timer before its tick (R91; log 14). -/
def cycle (s : State) : CycleResult × State :=
  match step s with
  | .next t => (.ok (beepActive s) (beepStop s), t)
  | .fault e => (.err e, s)
  | .refused r => (.refused r, s)

/-- The default of the parameter `FONT[0..79]` (00_scope.md R5; log 1). -/
def defaultFont : Config.Font := ⟨fontTable.toArray, rfl⟩

/-- `Init` for a given `FONT` (70_reset_and_hazards.md R100): every element to its reset value, whatever it was. The
model's own draw counter goes on, so no byte drawn after it is tied to one drawn before (R102; log 22). -/
def State.initWith (font : Config.Font) (s : State) : State :=
  { State.reset with mem := memSetBytes [] Config.fontBase font.toList, draws := s.draws }

/-- The state after `Init` for a given `FONT` (10_state.md R24). `State.reset` is this state for the default `FONT`. -/
def State.resetWith (font : Config.Font) : State := State.reset.initWith font

/-- The successful `Load` for a given `FONT` (70_reset_and_hazards.md R103): `Init`, then the image verbatim from 0x200
up. -/
def State.loadImage (font : Config.Font) (image : List Byte) (s : State) : State :=
  { s.initWith font with mem := memSetBytes (s.initWith font).mem Config.progBase image }

/-- The host moves of 10_state.md R26. -/
inductive HostMove where
  /-- `Init(seed?)`; the seed has no modelled effect (R102; log 22). -/
  | init (seed : Option Nat)
  /-- `Load(image, L)`, with `L` the length of the image. -/
  | load (image : List Byte)
  /-- `Cycle`. -/
  | cycle
  /-- `KeyWrite(k, b)`: any key, any byte (10_state.md R18). -/
  | keyWrite (k : Nibble) (b : Byte)
  /-- `RedrawClear`. -/
  | redrawClear
  /-- `TimerPreset(dt, st)` (60_exceptions.md R92). -/
  | timerPreset (dt st : Byte)
  /-- `ReadMem(a, len)`. -/
  | readMem (a len : Nat)
  /-- `ReadFB`. -/
  | readFB
  /-- `ReadDraw`. -/
  | readDraw
  deriving DecidableEq, Repr

/-- What a host move returns. -/
inductive MoveResult where
  /-- `Ok`, or nothing to report. -/
  | done
  /-- `Err(LoadError)`, by `Load` alone (60_exceptions.md R83). -/
  | loadError
  /-- The result of `Cycle`. -/
  | cycled (r : CycleResult)
  /-- The bytes of a read-only view. -/
  | bytes (bs : List Byte)
  /-- The redraw flag. -/
  | flag (b : Bool)
  /-- `ReadMem` of a range that leaves memory (log 17). -/
  | err (e : Fault)
  deriving DecidableEq, Repr

/-- `KEY[k] <- b` (10_state.md R18). -/
def State.setKey (s : State) (k : Nibble) (b : Byte) : State :=
  { s with key := s.key.set k.toNat b (by have := k.isLt; omega) }

/-- `DRAW <- 0` (10_state.md R20). -/
def State.clearRedraw (s : State) : State := { s with redraw := false }

/-- `DT <- dt`, `ST <- st` (60_exceptions.md R92). -/
def State.presetTimers (s : State) (dt st : Byte) : State := { s with dt := dt, st := st }

/-- `ReadMem(a, len)`: the bytes, with no effect (10_state.md R26). DESIGN CHOICE: for a range that leaves memory the
answer is `InvalidAddress` of its first address of 4096 or more, in the manner of 20_memory.md R30 (log 17). -/
def readMem (s : State) (a len : Nat) : MoveResult :=
  if a + len ≤ Config.memSize ∨ len = 0 then .bytes (memBytes s.mem a len)
  else .err (.invalidAddress (max a Config.memSize))

/-- One host move: its result and the state after it. `FONT` is a parameter of the machine (00_scope.md R5), which
`Init` and `Load` alone use. -/
def hostMove (font : Config.Font) (m : HostMove) (s : State) : MoveResult × State :=
  match m with
  | .init _ => (.done, s.initWith font)
  | .load image => if imageWf image then (.done, s.loadImage font image) else (.loadError, s)
  | .cycle => (.cycled (cycle s).1, (cycle s).2)
  | .keyWrite k b => (.done, s.setKey k b)
  | .redrawClear => (.done, s.clearRedraw)
  | .timerPreset dt st => (.done, s.presetTimers dt st)
  | .readMem a len => (readMem s a len, s)
  | .readFB => (.bytes (fbBytes s.fb), s)
  | .readDraw => (.flag s.redraw, s)

/-- The state after a list of host moves, in order, on the machine with a given `FONT`. -/
def afterMoves (font : Config.Font) (ms : List HostMove) (s : State) : State :=
  ms.foldl (fun t m => (hostMove font m t).2) s

end Sys2Proof.Machine
end

