-- ==== Sys2Proof/Safety.lean ====
section
/-! DEFINITION. What counts as a safe run, in the terms the statements use: the invariant of reachable states, the
states a host can reach, and a cycle that completes. -/

namespace Sys2Proof.Machine

/-- The facts the spec gives of every reachable state. -/
structure State.Inv (s : State) : Prop where
  /-- Memory is in canonical form, its addresses below 4096 (10_state.md R21). -/
  mem : memWf s.mem = true
  /-- The framebuffer is in canonical form, its cells below 2048 (10_state.md R19). -/
  fb : fbWf s.fb = true
  /-- Each framebuffer cell is 0 or 1 (10_state.md R19). -/
  lit : fbLitIsOne s.fb = true
  /-- `I[15:12] = 0` (10_state.md R13). -/
  index : s.i.toNat ≤ 0x0FFF
  /-- `0 <= pc <= 4098` (10_state.md R15). -/
  pcRange : s.pc.toNat ≤ 4098
  /-- The call stack is storage no instruction uses (10_state.md R16). -/
  stack : s.stack = Vector.replicate 16 0#16
  /-- So is the stack pointer (10_state.md R16). -/
  sp : s.sp = 0#8

/-- A state some sequence of host moves leads to from reset, on the machine with a given `FONT` (10_state.md R26,
00_scope.md R5). -/
def State.Reachable (s : State) (font : Config.Font) : Prop :=
  ∃ ms : List HostMove, afterMoves font ms (State.resetWith font) = s

/-- The next cycle completes: it returns `Ok`. -/
def State.Completes (s : State) : Prop := ∃ t, step s = .next t

/-- The fetch at `pc` finds both bytes in memory (40_cycle.md R55). -/
def State.Fetchable (s : State) : Prop := s.pc.toNat ≤ 4094

/-- The instruction word at `pc`, big-endian (20_memory.md R32). -/
def State.wordAtPc (s : State) : Word := memByte s.mem s.pc.toNat ++ memByte s.mem (s.pc.toNat + 1)

/-- A run of `k` cycles that all complete. -/
def State.RunsTo (s : State) (k : Nat) (t : State) : Prop := Sys2Proof.core.run k s = .next t

end Sys2Proof.Machine
end

