-- ==== Sys2Proof/Certificates/Slice0/Obligations.lean ====
section
/-! DEFINITION. The statements for the provers. Each says which rule of spec/ it formalises; where a clause is the
spec's own decision or the model's, its docstring names the decision or the log entry. -/

open Sys2Proof Sys2Proof.Machine

/-! ### Encoding -/

/-- R44: the fields of an instruction word as numbers, and in terms of its two bytes. -/
def Obligations.FieldsAreTheSlicesOfTheWord : Prop :=
  (∀ w : Word, (fieldOp w).toNat = w.toNat / 4096 ∧ (fieldX w).toNat = w.toNat / 256 % 16 ∧
    (fieldY w).toNat = w.toNat / 16 % 16 ∧ (fieldN w).toNat = w.toNat % 16 ∧
    (fieldNN w).toNat = w.toNat % 256 ∧ (fieldNNN w).toNat = w.toNat % 4096) ∧
  (∀ w : Word, fieldNNN w = fieldX w ++ fieldY w ++ fieldN w ∧ fieldNN w = fieldY w ++ fieldN w) ∧
  ∀ hi lo : Byte, (fieldOp (wordOfBytes hi lo)).toNat = hi.toNat / 16 ∧
    (fieldX (wordOfBytes hi lo)).toNat = hi.toNat % 16 ∧ fieldNN (wordOfBytes hi lo) = lo ∧
    (fieldY (wordOfBytes hi lo)).toNat = lo.toNat / 16 ∧ (fieldN (wordOfBytes hi lo)).toNat = lo.toNat % 16

/-- R48: the opcode map over all sixteen values of `op`: a word decodes to the row whose match value it has under the
mask 0xF000; the implemented rows are the seven families 1, 3, 6, 7, A, C, D, each with the fields of its format as
operands. -/
def Obligations.OpcodeMapIsByHighNibble : Prop :=
  ∀ w : Word, (decodeWord w).matchBits = w &&& 0xF000#16 ∧
    ((decodeWord w).isImplemented = true ↔ w.toNat / 4096 ∈ [0x1, 0x3, 0x6, 0x7, 0xA, 0xC, 0xD]) ∧
    (w.toNat / 4096 = 0x1 → decodeWord w = .jp (fieldNNN w)) ∧
    (w.toNat / 4096 = 0x3 → decodeWord w = .se (fieldX w) (fieldNN w)) ∧
    (w.toNat / 4096 = 0x6 → decodeWord w = .ldVx (fieldX w) (fieldNN w)) ∧
    (w.toNat / 4096 = 0x7 → decodeWord w = .add (fieldX w) (fieldNN w)) ∧
    (w.toNat / 4096 = 0xA → decodeWord w = .ldI (fieldNNN w)) ∧
    (w.toNat / 4096 = 0xC → decodeWord w = .rnd (fieldX w) (fieldNN w)) ∧
    (w.toNat / 4096 = 0xD → decodeWord w = .drw (fieldX w) (fieldY w) (fieldN w))

/-- Decoding the bytes of any instruction of any row, with every operand at every value of its field, gives it back and
leaves the bytes after it. -/
def Obligations.DecodeOfEncodeIsTheInstruction : Prop :=
  ∀ (i : Instr) (rest : List Byte), decode (encodeBytes i ++ rest) = .ok (i, rest)

/-- The other direction: every pair of bytes decodes, to an instruction whose own bytes they are, and fewer than two
bytes are refused by name. -/
def Obligations.EncodeOfDecodeIsTheBytes : Prop :=
  (∀ (hi lo : Byte) (rest : List Byte), ∃ i, decode (hi :: lo :: rest) = .ok (i, rest) ∧ encodeBytes i = [hi, lo]) ∧
  (∀ b : Byte, decode [b] = .error .truncated) ∧ decode [] = .error .truncated

/-- Words written out from 30_encoding.md R45 and R48 decode to the instructions they stand for. -/
def Obligations.SampleWordsDecode : Prop :=
  decodeWord 0b0001_001000001010#16 = .jp 0x20A ∧ decodeWord 0b0011_1010_01000010#16 = .se 0xA 0x42 ∧
  decodeWord 0b0110_0000_00000101#16 = .ldVx 0 5 ∧ decodeWord 0b0111_0001_00100000#16 = .add 1 0x20 ∧
  decodeWord 0b1010_000001010000#16 = .ldI 0x050 ∧ decodeWord 0b1100_0011_00001111#16 = .rnd 3 0x0F ∧
  decodeWord 0b1101_0001_0010_0011#16 = .drw 1 2 3 ∧ decodeWord 0b1000_000100100100#16 = .unsupported8 0x124

/-! ### Memory and fetch -/

/-- The two checked reads (20_memory.md R30), with the sum `addr + 1` taken without wrap-around. That the payload is the
first address out of range is the spec's decision D4 (log 11). -/
def Obligations.MemReadChecksTheRange : Prop :=
  ∀ (m : List Host.Cell) (a : Nat),
    (a < 4096 → memRead1 m a = .ok (memByte m a)) ∧ (4096 ≤ a → memRead1 m a = .error (.invalidAddress a)) ∧
    (a + 1 < 4096 → ∃ w, memRead2 m a = .ok w ∧ w.toNat = (memByte m a).toNat * 256 + (memByte m (a + 1)).toNat) ∧
    (4096 ≤ a → memRead2 m a = .error (.invalidAddress a)) ∧
    (a < 4096 → 4096 ≤ a + 1 → memRead2 m a = .error (.invalidAddress (a + 1)))

/-- The fetch succeeds exactly when `pc <= 4094`, with the big-endian word of `MEM[pc]` and `MEM[pc+1]`; otherwise the
cycle fails with the first bad address (40_cycle.md R55). That an odd or a low `pc` is fetched from like any other is the
spec's decisions D1 and D2 (log 10), the payload its decision D4 (log 11). -/
def Obligations.FetchReadsTheWordAtPc : Prop :=
  ∀ s : State,
    (s.pc.toNat ≤ 4094 → ∃ w, fetch s = .ok w ∧
      w.toNat = (memByte s.mem s.pc.toNat).toNat * 256 + (memByte s.mem (s.pc.toNat + 1)).toNat) ∧
    (s.pc.toNat = 4095 → step s = .fault (.invalidAddress 4096)) ∧
    (4096 ≤ s.pc.toNat → step s = .fault (.invalidAddress s.pc.toNat))

/-- Two memories in canonical form that read alike at every address are equal data: the model's own form (log 2). -/
def Obligations.MemoriesThatReadAlikeAreEqual : Prop :=
  ∀ m m' : List Host.Cell, memWf m = true → memWf m' = true → (∀ a, a < 4096 → memByte m a = memByte m' a) → m = m'

/-- The bytes of a table word stored by `withFetchWord` are the ones the next step fetches, and no other byte of memory
and no other element changes: the model's own stand-in for a load (log 16). -/
def Obligations.StoredFetchWordIsFetched : Prop :=
  ∀ (s : State) (w : Word), s.pc.toNat ≤ 4094 →
    fetch (s.withFetchWord 16 w.toNat) = .ok w ∧
    (∀ a, a ≠ s.pc.toNat → a ≠ s.pc.toNat + 1 → memByte (s.withFetchWord 16 w.toNat).mem a = memByte s.mem a) ∧
    s.withFetchWord 16 w.toNat = { s with mem := (s.withFetchWord 16 w.toNat).mem }

/-! ### The instructions: result, completion and frame -/

/-- R61: family 1 is the jump; it sets `pc` to any `nnn`, odd or low, and changes nothing else; after a jump to
0xFFF the next cycle fails with an `InvalidAddress` (of which address is in `FetchReadsTheWordAtPc`). -/
def Obligations.JpSetsPcToTheTarget : Prop :=
  (∀ w : Word, w.toNat / 4096 = 0x1 → decodeWord w = .jp (fieldNNN w)) ∧
  (∀ (nnn : Imm12) (s : State), ∃ t, exec (.jp nnn) s = .next t ∧ t.pc.toNat = nnn.toNat ∧ t = { s with pc := t.pc }) ∧
  ∀ s t : State, exec (.jp 0xFFF#12) s = .next t → ∃ a, step t = .fault (.invalidAddress a)

/-- R62: family 3 compares `V[x]` with `nn` and advances `pc` by 4 if they are equal, else by 2; it changes nothing
else. From a fetchable `pc` the sum does not wrap, and after either one at
4094 the next cycle fails with an `InvalidAddress`. -/
def Obligations.SeSkipsWhenEqual : Prop :=
  (∀ w : Word, w.toNat / 4096 = 0x3 → decodeWord w = .se (fieldX w) (fieldNN w)) ∧
  ∀ (x : Nibble) (nn : Byte) (s : State),
    (s.getV x = nn → exec (.se x nn) s = .next { s with pc := s.pc + 4#16 }) ∧
    (s.getV x ≠ nn → exec (.se x nn) s = .next { s with pc := s.pc + 2#16 }) ∧
    (s.pc.toNat ≤ 4094 → (s.pc + 4#16).toNat = s.pc.toNat + 4 ∧ (s.pc + 2#16).toNat = s.pc.toNat + 2) ∧
    (s.pc.toNat = 4094 → ∀ t, exec (.se x nn) s = .next t → ∃ a, step t = .fault (.invalidAddress a))

/-- R64: family 6 stores `nn` in `V[x]`, any `x`, `VF` too, and advances `pc` by 2; nothing else changes. -/
def Obligations.LdVxStoresTheImmediate : Prop :=
  (∀ w : Word, w.toNat / 4096 = 0x6 → decodeWord w = .ldVx (fieldX w) (fieldNN w)) ∧
  ∀ (x : Nibble) (nn : Byte) (s : State), ∃ t, exec (.ldVx x nn) s = .next t ∧ t.getV x = nn ∧
    (∀ y, y ≠ x → t.getV y = s.getV y) ∧ t = { s with v := t.v, pc := s.pc + 2#16 }

/-- R65: family 7 adds `nn` to `V[x]` modulo 256 and advances `pc` by 2; no other register changes, `VF` among them,
and nothing else does. -/
def Obligations.AddWrapsAndWritesNoFlag : Prop :=
  (∀ w : Word, w.toNat / 4096 = 0x7 → decodeWord w = .add (fieldX w) (fieldNN w)) ∧
  ∀ (x : Nibble) (nn : Byte) (s : State), ∃ t, exec (.add x nn) s = .next t ∧
    (t.getV x).toNat = ((s.getV x).toNat + nn.toNat) % 256 ∧
    (∀ y, y ≠ x → t.getV y = s.getV y) ∧ t = { s with v := t.v, pc := s.pc + 2#16 }

/-- R66: family A sets `I` to `nnn`, zero-extended, and advances `pc` by 2; nothing else changes. -/
def Obligations.LdILoadsTheIndex : Prop :=
  (∀ w : Word, w.toNat / 4096 = 0xA → decodeWord w = .ldI (fieldNNN w)) ∧
  ∀ (nnn : Imm12) (s : State), ∃ t, exec (.ldI nnn) s = .next t ∧ t.i.toNat = nnn.toNat ∧
    t = { s with i := t.i, pc := s.pc + 2#16 }

/-- Family C stores a byte of the random source, masked by `nn`, and advances `pc` by 2; the facts a proof may use are
that no bit outside `nn` is set and that the result is at most `nn`. The byte is the free value at the model's own
draw counter, which moves on by one (log 3; 43_random.md, decision D11). -/
def Obligations.RndMasksTheDraw : Prop :=
  ∀ (x : Nibble) (nn : Byte) (s : State), ∃ t, exec (.rnd x nn) s = .next t ∧
    t.getV x = Config.rand8 s.draws &&& nn ∧ t.getV x &&& ~~~nn = 0#8 ∧ (t.getV x).toNat ≤ nn.toNat ∧
    (∀ y, y ≠ x → t.getV y = s.getV y) ∧ t = { s with v := t.v, pc := s.pc + 2#16, draws := s.draws + 1 }

/-- A draw whose rows would pass the end of memory, `I + n > 4096`, is `InvalidAddress(4096)`, and the cycle that
fetched it changes nothing. The check before every effect is the spec's decision D6 (log 5). -/
def Obligations.DrwOutOfBoundsFaults : Prop :=
  (∀ (x y n : Nibble) (s : State), 4096 < s.i.toNat + n.toNat →
    exec (.drw x y n) s = .fault (.invalidAddress 4096)) ∧
  ∀ s : State, s.Fetchable → s.wordAtPc.toNat / 4096 = 0xD → 4096 < s.i.toNat + s.wordAtPc.toNat % 16 →
    cycle s = (.err (.invalidAddress 4096), s)

/-- A draw in bounds completes, its zero-row form too. Frame: only `VF` among the registers, the framebuffer, `DRAW`
and `pc` change; no byte of memory does; `VF` is 0 or 1; and of no rows, no pixel changes and `VF` is 0. That `DRAW`
is set whatever was drawn, and what `n = 0` does, are the spec's decisions D9 and D8 (log 8, log 7). -/
def Obligations.DrwCompletesInBounds : Prop :=
  ∀ (x y n : Nibble) (s : State), s.i.toNat + n.toNat ≤ 4096 → ∃ t, exec (.drw x y n) s = .next t ∧
    (∀ r, r ≠ 0xF#4 → t.getV r = s.getV r) ∧ (t.getV 0xF#4 = 0#8 ∨ t.getV 0xF#4 = 1#8) ∧ t.redraw = true ∧
    t = { s with v := t.v, fb := t.fb, redraw := true, pc := s.pc + 2#16 } ∧
    (∀ a, memByte t.mem a = memByte s.mem a) ∧ (n = 0#4 → t.fb = s.fb ∧ t.getV 0xF#4 = 0#8)

/-- Sprite row `row`, column `col` of `Dxyn` at `s` is a bit that is 1 and falls on the cell (`px`, `py`): bit 7 is the
leftmost column, and each axis wraps (44_sprite_draw.md R74). -/
def Sys2Proof.Machine.SpriteBitFallsOn (s : State) (x y : Nibble) (row col px py : Nat) : Prop :=
  (memByte s.mem (s.i.toNat + row)).getLsbD (7 - col) = true ∧
  px = ((s.getV x).toNat + col) % 64 ∧ py = ((s.getV y).toNat + row) % 32

/-- Some bit of the sprite of `Dxyn` at `s` falls on the cell (`px`, `py`). -/
def Sys2Proof.Machine.SpriteCovers (s : State) (x y n : Nibble) (px py : Nat) : Prop :=
  ∃ row col, row < n.toNat ∧ col < 8 ∧ SpriteBitFallsOn s x y row col px py

/-- The loops of `Dxyn` are the cell-wise exclusive OR of the old framebuffer with the wrapped sprite, and `VF` is 1
exactly when the two have a lit cell in common, else 0 (44_sprite_draw.md R70, R74, R75, R78). The origin is the value
of `V[x]` and `V[y]` before `VF` is written, a lit cell is the byte 1, and `n = 0` draws no rows: the spec's
decisions D7, D10 and D8 (log 6, log 9, log 7). -/
def Obligations.DrwXorsTheSpriteIntoTheFramebuffer : Prop :=
  ∀ (x y n : Nibble) (s t : State), exec (.drw x y n) s = .next t →
    (∀ px py, px < 64 → py < 32 →
      (SpriteCovers s x y n px py → pixel t.fb px py = if pixel s.fb px py ≠ 0#8 then 0#8 else 1#8) ∧
      (¬ SpriteCovers s x y n px py → pixel t.fb px py = pixel s.fb px py)) ∧
    ((∃ px py, px < 64 ∧ py < 32 ∧ SpriteCovers s x y n px py ∧ pixel s.fb px py ≠ 0#8) → t.getV 0xF#4 = 1#8) ∧
    ((∀ px py, px < 64 → py < 32 → SpriteCovers s x y n px py → pixel s.fb px py = 0#8) → t.getV 0xF#4 = 0#8)

/-- No cell is touched twice in one draw: two sprite bits of an 8-column, at most 15-row sprite that fall on one cell are
the same bit (44_sprite_draw.md R78, an inference the spec marks as its own). -/
def Obligations.NoCellIsTouchedTwice : Prop :=
  ∀ (ox oy : Byte) (row row' col col' : Nat), row < 15 → row' < 15 → col < 8 → col' < 8 →
    fbIndex (pixelCol ox col) (pixelRow oy row) = fbIndex (pixelCol ox col') (pixelRow oy row') →
    row = row' ∧ col = col'

/-- The XOR collision law (44_sprite_draw.md R75): drawing the same sprite twice, at an origin `VF` does not hold, puts
every cell of the screen back on or off as it was; and where every touched cell was off and some bit is set, the second
draw turns every touched cell off again and sets `VF` to 1. -/
def Obligations.DrawingTwiceRestoresTheScreen : Prop :=
  ∀ (x y n : Nibble) (s t u : State), x ≠ 0xF#4 → y ≠ 0xF#4 →
    exec (.drw x y n) s = .next t → exec (.drw x y n) t = .next u →
    (∀ px py, px < 64 → py < 32 → (pixel u.fb px py ≠ 0#8 ↔ pixel s.fb px py ≠ 0#8)) ∧
    ((∀ px py, px < 64 → py < 32 → SpriteCovers s x y n px py → pixel s.fb px py = 0#8) →
      ((∃ px py, px < 64 ∧ py < 32 ∧ SpriteCovers s x y n px py) → u.getV 0xF#4 = 1#8) ∧
      ∀ px py, px < 64 → py < 32 → SpriteCovers s x y n px py → pixel u.fb px py = 0#8)

/-- The document's wrap property (44_sprite_draw.md R74): an 8-wide row drawn at column 63 of row 0 on a blank screen
lights column 63 and columns 0 to 6 of row 0, and no other cell. For `x` or `y` = 0xF, that the origin is read before
`VF` is written is the spec's decision D7 (log 6). -/
def Obligations.SpriteWrapsAtTheRightEdge : Prop :=
  ∀ (x y : Nibble) (s t : State), s.fb = [] → (s.getV x).toNat = 63 → (s.getV y).toNat = 0 →
    memByte s.mem s.i.toNat = 0xFF#8 → exec (.drw x y 1#4) s = .next t →
    ∀ px py, px < 64 → py < 32 → (pixel t.fb px py ≠ 0#8 ↔ py = 0 ∧ (px = 63 ∨ px ≤ 6))

/-- R49: the unsupported words are those of the nine families; each fails with `UnsupportedOpcode(word, pc)`, whatever
its low 12 bits, and the cycle leaves `pc` unmodified. (That it leaves everything else unmodified too is
`FailedCycleIsAFixedPoint`.) -/
def Obligations.UnsupportedFamiliesRaiseUnsupportedOpcode : Prop :=
  (∀ (u : Imm12) (s : State),
    exec (.unsupported0 u) s = .fault (.unsupportedOpcode (0x0#4 ++ u) s.pc) ∧
    exec (.unsupported2 u) s = .fault (.unsupportedOpcode (0x2#4 ++ u) s.pc) ∧
    exec (.unsupported4 u) s = .fault (.unsupportedOpcode (0x4#4 ++ u) s.pc) ∧
    exec (.unsupported5 u) s = .fault (.unsupportedOpcode (0x5#4 ++ u) s.pc) ∧
    exec (.unsupported8 u) s = .fault (.unsupportedOpcode (0x8#4 ++ u) s.pc) ∧
    exec (.unsupported9 u) s = .fault (.unsupportedOpcode (0x9#4 ++ u) s.pc) ∧
    exec (.unsupportedB u) s = .fault (.unsupportedOpcode (0xB#4 ++ u) s.pc) ∧
    exec (.unsupportedE u) s = .fault (.unsupportedOpcode (0xE#4 ++ u) s.pc) ∧
    exec (.unsupportedF u) s = .fault (.unsupportedOpcode (0xF#4 ++ u) s.pc)) ∧
  (∀ w : Word, (decodeWord w).isImplemented = false ↔
    w.toNat / 4096 ∈ [0x0, 0x2, 0x4, 0x5, 0x8, 0x9, 0xB, 0xE, 0xF]) ∧
  ∀ s : State, s.Fetchable →
    s.wordAtPc.toNat / 4096 ∈ [0x0, 0x2, 0x4, 0x5, 0x8, 0x9, 0xB, 0xE, 0xF] →
    (cycle s).1 = .err (.unsupportedOpcode s.wordAtPc s.pc) ∧ (cycle s).2.pc = s.pc

/-! ### The cycle -/

/-- When the two bytes at `pc` decode to an instruction, a step is its execution followed by one timer tick; a fault or
a refusal of the instruction is the step's; and the tick is the two countdowns and nothing else (40_cycle.md R54 to
R58). -/
def Obligations.StepRunsTheDecodedInstruction : Prop :=
  ∀ (s : State) (i : Instr), s.Fetchable →
    decode [memByte s.mem s.pc.toNat, memByte s.mem (s.pc.toNat + 1)] = .ok (i, []) →
    (step s = match exec i s with
      | .next t => .next (tick t)
      | .fault e => .fault e
      | .refused r => .refused r) ∧
    ∀ t : State, tick t = { t with dt := (tick t).dt, st := (tick t).st } ∧
      (tick t).dt.toNat = t.dt.toNat - 1 ∧ (tick t).st.toNat = t.st.toNat - 1

/-- The complete `Cycle` of 40_cycle.md R60: its raise sites in their order, its sixteen cases by the high nibble, the audio signals
and the tick, written out over the fields of the state. `Draw` is named by its own result, `exec (.drw x y n)`, which
the statements about `Dxyn` describe; `rand8` is some byte, and `drawn` the model's own field after it. That a failed
cycle returns the whole state it was given is the spec's decision D5 (log 4), the payloads of the fetch errors its decision
D4 (log 11), the random byte its decision D11 (log 3) and the two signals its decision D13 (log 14). -/
def Obligations.CycleIsTheStepFunction : Prop :=
  ∀ s : State, ∃ (rand8 : Byte) (drawn : Nat),
    let w : Word := s.wordAtPc
    let op := w.toNat / 4096
    let x := fieldX w
    let done (t : State) : CycleResult × State :=
      (.ok (decide (s.st ≠ 0#8)) (decide (s.st = 1#8)),
        { t with dt := if s.dt ≠ 0#8 then s.dt - 1#8 else s.dt, st := if s.st ≠ 0#8 then s.st - 1#8 else s.st })
    cycle s =
      if s.pc.toNat ≥ 4096 then (.err (.invalidAddress s.pc.toNat), s)
      else if s.pc.toNat + 1 ≥ 4096 then (.err (.invalidAddress (s.pc.toNat + 1)), s)
      else if op = 0x1 then done { s with pc := 0x0#4 ++ fieldNNN w }
      else if op = 0x3 then done (if s.getV x = fieldNN w then { s with pc := s.pc + 4#16 } else { s with pc := s.pc + 2#16 })
      else if op = 0x6 then done { s.setV x (fieldNN w) with pc := s.pc + 2#16 }
      else if op = 0x7 then done { s.setV x (s.getV x + fieldNN w) with pc := s.pc + 2#16 }
      else if op = 0xA then done { s with i := 0x0#4 ++ fieldNNN w, pc := s.pc + 2#16 }
      else if op = 0xC then done { s.setV x (rand8 &&& fieldNN w) with pc := s.pc + 2#16, draws := drawn }
      else if op = 0xD then
        match exec (.drw x (fieldY w) (fieldN w)) s with
        | .next t => done t
        | .fault e => (.err e, s)
        | .refused r => (.refused r, s)
      else (.err (.unsupportedOpcode w s.pc), s)

/-- A cycle completes exactly when the fetch is in range, the word is of an implemented family, and a draw's rows lie in
memory; there is no other error, and the three exclude each other (60_exceptions.md R81, R82, R84, R86). -/
def Obligations.CycleFailsExactlyInThreeWays : Prop :=
  ∀ s : State,
    (s.Completes ↔ s.pc.toNat ≤ 4094 ∧ s.wordAtPc.toNat / 4096 ∈ [0x1, 0x3, 0x6, 0x7, 0xA, 0xC, 0xD] ∧
      (s.wordAtPc.toNat / 4096 = 0xD → s.i.toNat + s.wordAtPc.toNat % 16 ≤ 4096)) ∧
    ∀ e, step s = .fault e ↔
      (4094 < s.pc.toNat ∧ e = .invalidAddress (max s.pc.toNat 4096)) ∨
      (s.pc.toNat ≤ 4094 ∧ s.wordAtPc.toNat / 4096 ∈ [0x0, 0x2, 0x4, 0x5, 0x8, 0x9, 0xB, 0xE, 0xF] ∧
        e = .unsupportedOpcode s.wordAtPc s.pc) ∨
      (s.pc.toNat ≤ 4094 ∧ s.wordAtPc.toNat / 4096 = 0xD ∧ 4096 < s.i.toNat + s.wordAtPc.toNat % 16 ∧
        e = .invalidAddress 4096)

/-- No instruction and no cycle is refused: the model gives every word a meaning. -/
def Obligations.NothingIsRefused : Prop :=
  (∀ (i : Instr) (s : State) (r : Refusal), exec i s ≠ .refused r) ∧
  ∀ (s : State) (r : Refusal), step s ≠ .refused r ∧ (cycle s).1 ≠ .refused r

/-- A failed cycle changes nothing, and calling again fails with the same error for ever, whatever the random source
would give: its error does not depend on the draw. That the timers do not tick is the spec's decision D5 (log 4). -/
def Obligations.FailedCycleIsAFixedPoint : Prop :=
  ∀ (s t : State) (e : Fault), cycle s = (.err e, t) →
    t = s ∧ (∀ font k, afterMoves font (List.replicate k .cycle) s = s) ∧
    ∀ d, (cycle { s with draws := d }).1 = .err e

/-- The program counter after a successful cycle: `nnn` for family 1, `pc + 4` for a taken skip, `pc + 2` otherwise; the
sum is not reduced modulo 4096 and does not wrap (10_state.md R14, 40_cycle.md R57). -/
def Obligations.PcAfterACycle : Prop :=
  ∀ s t : State, step s = .next t →
    (s.wordAtPc.toNat / 4096 = 0x1 → t.pc.toNat = s.wordAtPc.toNat % 4096) ∧
    (s.wordAtPc.toNat / 4096 = 0x3 → s.getV (fieldX s.wordAtPc) = fieldNN s.wordAtPc → t.pc.toNat = s.pc.toNat + 4) ∧
    (s.wordAtPc.toNat / 4096 = 0x3 → s.getV (fieldX s.wordAtPc) ≠ fieldNN s.wordAtPc → t.pc.toNat = s.pc.toNat + 2) ∧
    (s.wordAtPc.toNat / 4096 ≠ 0x1 → s.wordAtPc.toNat / 4096 ≠ 0x3 → t.pc.toNat = s.pc.toNat + 2)

/-- `pc` stays even through every cycle but a jump to an odd address (10_state.md R15). -/
def Obligations.EvenPcStaysEven : Prop :=
  ∀ s t : State, step s = .next t → s.pc.toNat % 2 = 0 →
    (t.pc.toNat % 2 = 1 ↔ s.wordAtPc.toNat / 4096 = 0x1 ∧ s.wordAtPc.toNat % 2 = 1)

/-- Which cycles write which element: no cycle writes memory, the stack, the stack pointer or a key flag; `I` is written
by family A alone, the framebuffer and `DRAW` by family D alone, the draw counter by family C alone; families 1, 3 and A
write no register, families 6, 7 and C none but `V[x]`, family D none but `VF` (10_state.md R11, R13, R16 to R20;
20_memory.md R31; 43_random.md R68 for the counter, which is the model's own field, log 3). -/
def Obligations.EachElementHasItsOwnWriters : Prop :=
  ∀ s t : State, step s = .next t →
    ((∀ a, memByte t.mem a = memByte s.mem a) ∧ t.mem = s.mem ∧ t.stack = s.stack ∧ t.sp = s.sp ∧ t.key = s.key) ∧
    (s.wordAtPc.toNat / 4096 ≠ 0xA → t.i = s.i) ∧
    (s.wordAtPc.toNat / 4096 ≠ 0xD → t.fb = s.fb ∧ t.redraw = s.redraw) ∧
    (s.wordAtPc.toNat / 4096 ≠ 0xC → t.draws = s.draws) ∧
    (s.wordAtPc.toNat / 4096 ∈ [0x1, 0x3, 0xA] → t.v = s.v) ∧
    (s.wordAtPc.toNat / 4096 ∈ [0x6, 0x7, 0xC] → ∀ r, r ≠ fieldX s.wordAtPc → t.getV r = s.getV r) ∧
    (s.wordAtPc.toNat / 4096 = 0xD → ∀ r, r ≠ 0xF#4 → t.getV r = s.getV r)

/-- The key flags, the stack, the stack pointer, the redraw flag and the timers never affect what a cycle does to the
rest of the state: the same cycle from a state that differs in them alone has the same outcome but for them (10_state.md
R16 to R18, R20). -/
def Obligations.KeysStackAndTimersAreNeverRead : Prop :=
  ∀ (s : State) (stack : Vector Word 16) (key : Vector Byte 16) (sp dt st : Byte) (redraw : Bool),
    let alter (u : State) : State := { u with stack := stack, key := key, sp := sp, dt := dt, st := st, redraw := redraw }
    (∀ e, step s = .fault e ↔ step (alter s) = .fault e) ∧
    ∀ t, step s = .next t → ∃ t', step (alter s) = .next t' ∧
      t'.mem = t.mem ∧ t'.v = t.v ∧ t'.i = t.i ∧ t'.pc = t.pc ∧ t'.fb = t.fb ∧ t'.draws = t.draws ∧
      t'.stack = stack ∧ t'.key = key ∧ t'.sp = sp

/-- The random source is seen by family C alone: for every other word, and for every error, a cycle does not depend on
it; for family C it can show in `V[x]` only (43_random.md R69; the counter is the model's own, log 3). -/
def Obligations.OnlyRndSeesTheRandomSource : Prop :=
  ∀ (s : State) (d : Nat),
    (∀ e, step s = .fault e ↔ step { s with draws := d } = .fault e) ∧
    (∀ t, step s = .next t → s.wordAtPc.toNat / 4096 ≠ 0xC →
      step { s with draws := d } = .next { t with draws := d }) ∧
    ∀ t, step s = .next t → s.wordAtPc.toNat / 4096 = 0xC → ∃ t', step { s with draws := d } = .next t' ∧
      (∀ r, r ≠ fieldX s.wordAtPc → t'.getV r = t.getV r) ∧ t' = { t with v := t'.v, draws := d + 1 }

/-! ### Timers and audio -/

/-- One tick at the end of every successful cycle, each timer down by 1 unless it is 0; no instruction writes or reads a
timer; both are 0 at reset (60_exceptions.md R90). That a failed cycle does not tick is the spec's decision D5
(log 4). -/
def Obligations.TimersTickOncePerSuccessfulCycle : Prop :=
  (∀ s t : State, step s = .next t → t.dt.toNat = s.dt.toNat - 1 ∧ t.st.toNat = s.st.toNat - 1) ∧
  (∀ (s t : State) (e : Fault), cycle s = (.err e, t) → t.dt = s.dt ∧ t.st = s.st) ∧
  (∀ (i : Instr) (s t : State), exec i s = .next t → t.dt = s.dt ∧ t.st = s.st ∧
    ∀ d e : Byte, exec i { s with dt := d, st := e } = .next { t with dt := d, st := e }) ∧
  State.reset.dt = 0#8 ∧ State.reset.st = 0#8

/-- Over a run of any length the timers count down to 0 and stay there (60_exceptions.md R90). -/
def Obligations.TimersCountDownOverARun : Prop :=
  ∀ (k : Nat) (s t : State), s.RunsTo k t → t.dt.toNat = s.dt.toNat - k ∧ t.st.toNat = s.st.toNat - k

/-- The audio signals of a successful cycle: "beep active" when the sound timer was not 0, "beep stop" exactly when
its decrement reached 0, so both in the cycle from 1 to 0. The reading of the two clauses is the spec's decision D13
(log 14). -/
def Obligations.AudioSignalsFollowTheSoundTimer : Prop :=
  ∀ s t : State, step s = .next t → ∃ active stop, cycle s = (.ok active stop, t) ∧
    (active = true ↔ s.st ≠ 0#8) ∧ (stop = true ↔ s.st ≠ 0#8 ∧ t.st = 0#8) ∧ (stop = true → active = true)

/-- A jump to its own address spins for ever: every cycle succeeds, and only the timers change (41_control_flow.md R61,
70_reset_and_hazards.md R106). An odd or a low `pc` is the spec's decisions D1 and D2 (log 10). -/
def Obligations.SelfJumpSpinsForEver : Prop :=
  ∀ s : State, s.Fetchable → s.wordAtPc.toNat = 0x1000 + s.pc.toNat →
    ∀ k, ∃ t, s.RunsTo k t ∧ t = { s with dt := t.dt, st := t.st }

/-- The document's property of `6xnn` then `7xnn`: two cycles leave `(nn + nn2) mod 256` in `V[x]` and `pc` four
further on (42_register_ops.md R65). -/
def Obligations.LoadThenAddSums : Prop :=
  ∀ (s : State) (x : Nibble) (nn nn2 : Byte), s.pc.toNat ≤ 4092 →
    s.wordAtPc = encode (.ldVx x nn) →
    memByte s.mem (s.pc.toNat + 2) ++ memByte s.mem (s.pc.toNat + 3) = encode (.add x nn2) →
    ∃ t, s.RunsTo 2 t ∧ (t.getV x).toNat = (nn.toNat + nn2.toNat) % 256 ∧ t.pc.toNat = s.pc.toNat + 4

/-! ### Reset, load and the host -/

/-- R24: the state after `Init`, element by element, with the font bytes left as the parameter `FONT`; the first cycle
then fails on the word 0x0000; and the state after a load is the table with the image in place. The machine's reset
state is this one for some `FONT`. (A load of no bytes is in `LoadPlacesTheImage`.) -/
def Obligations.ResetIsTheTableOfInit : Prop :=
  (∃ font : Config.Font, State.reset = State.resetWith font) ∧
  ∀ font : Config.Font,
    let r := State.resetWith font
    (∀ x, r.getV x = 0#8) ∧ r.i = 0#16 ∧ r.pc = 0x200#16 ∧
    r.stack = Vector.replicate 16 0#16 ∧ r.sp = 0#8 ∧ r.dt = 0#8 ∧ r.st = 0#8 ∧
    r.key = Vector.replicate 16 0#8 ∧ (∀ px py, pixel r.fb px py = 0#8) ∧ r.redraw = false ∧
    (∀ a, a < 0x050 ∨ 0x09F < a → memByte r.mem a = 0#8) ∧
    (∀ k (h : k < 80), memByte r.mem (0x050 + k) = font[k]) ∧
    (cycle r).1 = .err (.unsupportedOpcode 0x0000#16 0x200#16) ∧
    ∀ image : List Byte, 0 < image.length → image.length ≤ 3584 →
      ∃ m, hostMove font (.load image) r = (.done, { r with mem := m }) ∧
        (∀ k (h : k < image.length), memByte m (0x200 + k) = image[k]) ∧
        ∀ a, a < 0x200 ∨ 0x200 + image.length ≤ a → memByte m a = memByte r.mem a

/-- From any state and for any `FONT`, `Init` gives every element its reset value, the font at 0x050 to 0x09F and zeros
elsewhere, and doing it twice is doing it once (70_reset_and_hazards.md R100, R101). Two clauses are the model's: its own
draw counter is no element of the spec and goes on (log 22), and `State.reset` takes the default font (log 1). -/
def Obligations.InitGivesTheResetStateForEveryFont : Prop :=
  (∀ (font : Config.Font) (s : State), ∃ t, hostMove font (.init none) s = (.done, t) ∧
    t = { State.resetWith font with draws := s.draws } ∧
    (∀ k (h : k < 80), memByte t.mem (0x050 + k) = font[k]) ∧
    (∀ a, a < 0x050 ∨ 0x09F < a → memByte t.mem a = 0#8) ∧
    hostMove font (.init none) t = (.done, t)) ∧
  State.resetWith defaultFont = State.reset

/-- `Load` of an image of at most 3584 bytes, from any state and for any `FONT`: the image verbatim from 0x200 up, the
rest of memory and every other element as after `Init` (70_reset_and_hazards.md R103). That the empty image is accepted is
the spec's decision D16 (log 18). That memory is in canonical form, and that the draw counter goes on, is said of the
model's own form (log 2) and its own field (log 22). -/
def Obligations.LoadPlacesTheImage : Prop :=
  ∀ (font : Config.Font) (image : List Byte) (s : State), image.length ≤ 3584 →
    ∃ t, hostMove font (.load image) s = (.done, t) ∧
      (∀ k (h : k < image.length), memByte t.mem (0x200 + k) = image[k]) ∧
      (∀ a, a < 0x200 ∨ 0x200 + image.length ≤ a → memByte t.mem a = memByte (State.resetWith font).mem a) ∧
      memWf t.mem = true ∧ t = { State.resetWith font with mem := t.mem, draws := s.draws } ∧
      (image = [] → hostMove font (.init none) s = (.done, t))

/-- `Load` of a longer image is `LoadError`, and every element of the prior state is untouched: the spec's decision D14
(log 18). No other host move returns it. -/
def Obligations.TooLongLoadIsLoadError : Prop :=
  ∀ (font : Config.Font) (m : HostMove) (s : State),
    ((hostMove font m s).1 = .loadError ↔ ∃ image, m = .load image ∧ 3584 < image.length) ∧
    ((hostMove font m s).1 = .loadError → (hostMove font m s).2 = s)

/-- The host moves that are no cycle, `Init` or `Load` (10_state.md R26, the list the spec's decision D17 closes;
log 15): `KeyWrite` writes its key alone, `RedrawClear` the redraw flag alone, `TimerPreset` the two timers alone,
the three reads nothing, and the seed of `Init` has no effect (log 22). -/
def Obligations.HostMovesWriteOnlyTheirOwn : Prop :=
  ∀ (font : Config.Font) (s : State),
    (∀ (k : Nibble) (b : Byte), ∃ key, hostMove font (.keyWrite k b) s = (.done, { s with key := key }) ∧
      ∀ j (h : j < 16), key[j] = if j = k.toNat then b else s.key[j]) ∧
    (∀ seed, hostMove font (.init seed) s = hostMove font (.init none) s) ∧
    hostMove font .redrawClear s = (.done, { s with redraw := false }) ∧
    (∀ d e : Byte, hostMove font (.timerPreset d e) s = (.done, { s with dt := d, st := e })) ∧
    (∀ a len, a + len ≤ 4096 → ∃ bs, hostMove font (.readMem a len) s = (.bytes bs, s) ∧ bs.length = len ∧
      ∀ k (h : k < bs.length), bs[k] = memByte s.mem (a + k)) ∧
    (∃ bs, hostMove font .readFB s = (.bytes bs, s) ∧ bs.length = 2048 ∧
      ∀ px py, px < 64 → py < 32 → bs[py * 64 + px]? = some (pixel s.fb px py)) ∧
    hostMove font .readDraw s = (.flag s.redraw, s)

/-! ### The invariant -/

/-- The invariant holds at reset. -/
def Obligations.InvariantHoldsAtReset : Prop := State.reset.Inv

/-- Every step keeps the invariant, from every state that meets it: memory and the framebuffer stay in canonical form,
cells stay 0 or 1, `I` stays below 4096, `pc` at most 4098, the stack and its pointer 0 (10_state.md R13, R15, R16,
R19). The canonical forms are the model's own (log 2, log 21); that a lit cell is the byte 1 is the spec's decision D10
(log 9). -/
def Obligations.EveryStepKeepsTheInvariant : Prop :=
  ∀ s t : State, s.Inv → step s = .next t → t.Inv

/-- So does every host move, for any `FONT`, and the invariant holds of every state a host can reach. That the moves are
these and no others is the spec's decision D17 (log 15); of the invariant, the canonical forms are the model's own (log 2,
log 21) and that a lit cell is the byte 1 is the spec's decision D10 (log 9). -/
def Obligations.EveryReachableStateMeetsTheInvariant : Prop :=
  (∀ (font : Config.Font) (m : HostMove) (s : State), s.Inv → (hostMove font m s).2.Inv) ∧
  ∀ (font : Config.Font) (s : State), s.Reachable font → s.Inv

/-- Between two loads memory is constant: no host move but `Init` and `Load` changes a byte, so a program cannot modify
itself (20_memory.md R31, R40). -/
def Obligations.OnlyInitAndLoadWriteMemory : Prop :=
  ∀ (font : Config.Font) (ms : List HostMove) (s : State),
    (∀ m ∈ ms, (∀ seed, m ≠ .init seed) ∧ ∀ image, m ≠ .load image) →
    (afterMoves font ms s).mem = s.mem ∧ ∀ a, memByte (afterMoves font ms s).mem a = memByte s.mem a
end

