-- ==== Sys2Proof/Laws/Cells.lean ====
section
/-! SUPPORT. The laws of the byte arrays: a read after a write, and that a write keeps the canonical form. -/

namespace Sys2Proof.Machine

variable {bg : Nat → Byte}

theorem cellsGet_insert_of_ne (c : Host.Cell) (cs : List Host.Cell) (a : Nat) (h : c.1 ≠ a) :
    cellsGet bg (cellsInsert c cs) a = cellsGet bg cs a := by
  induction cs with
  | nil => simp [cellsInsert, cellsGet, h]
  | cons d ds ih =>
    simp only [cellsInsert]
    split
    · simp [cellsGet, h]
    · simp [cellsGet, ih]

theorem cellsGet_insert_self (c : Host.Cell) (cs : List Host.Cell) (h : ∀ d ∈ cs, d.1 ≠ c.1) :
    cellsGet bg (cellsInsert c cs) c.1 = c.2 := by
  induction cs with
  | nil => simp [cellsInsert, cellsGet]
  | cons d ds ih =>
    have hd : d.1 ≠ c.1 := h d List.mem_cons_self
    simp only [cellsInsert]
    split
    · simp [cellsGet]
    · simp [cellsGet, hd, ih fun e he => h e (List.mem_cons_of_mem d he)]

theorem cellsGet_filter_of_ne (cs : List Host.Cell) (a k : Nat) (h : k ≠ a) :
    cellsGet bg (cs.filter fun c => c.1 ≠ a) k = cellsGet bg cs k := by
  induction cs with
  | nil => rfl
  | cons d ds ih =>
    by_cases hd : d.1 = a
    · simpa [hd, cellsGet, Ne.symm h] using ih
    · rw [List.filter_cons_of_pos (by simpa using hd)]
      simp only [cellsGet, ih]

/-- An address that is not listed reads as the background. -/
theorem cellsGet_of_not_listed (cs : List Host.Cell) (a : Nat) (h : ∀ d ∈ cs, d.1 ≠ a) : cellsGet bg cs a = bg a := by
  induction cs with
  | nil => rfl
  | cons d ds ih => simp [cellsGet, h d List.mem_cons_self, ih fun e he => h e (List.mem_cons_of_mem d he)]

theorem cellsGet_set_self (cs : List Host.Cell) (a : Nat) (b : Byte) : cellsGet bg (cellsSet bg cs a b) a = b := by
  have hne : ∀ d ∈ cs.filter (fun c => c.1 ≠ a), d.1 ≠ a := fun d hd => by simpa using (List.mem_filter.mp hd).2
  simp only [cellsSet]
  split
  · rename_i hb; rw [cellsGet_of_not_listed _ _ hne, hb]
  · exact cellsGet_insert_self (a, b) _ hne

theorem cellsGet_set_of_ne (cs : List Host.Cell) (a k : Nat) (b : Byte) (h : k ≠ a) :
    cellsGet bg (cellsSet bg cs a b) k = cellsGet bg cs k := by
  simp only [cellsSet]
  split
  · exact cellsGet_filter_of_ne cs a k h
  · rw [cellsGet_insert_of_ne _ _ _ (Ne.symm h), cellsGet_filter_of_ne cs a k h]

theorem cellsGet_set (cs : List Host.Cell) (a k : Nat) (b : Byte) :
    cellsGet bg (cellsSet bg cs a b) k = if k = a then b else cellsGet bg cs k := by
  by_cases h : k = a
  · subst h; simp [cellsGet_set_self]
  · simp [h, cellsGet_set_of_ne]

theorem mem_cellsInsert {c d : Host.Cell} {cs : List Host.Cell} : d ∈ cellsInsert c cs ↔ d = c ∨ d ∈ cs := by
  induction cs with
  | nil => simp [cellsInsert]
  | cons e es ih =>
    simp only [cellsInsert]
    split
    · simp
    · simp [ih, or_left_comm]

theorem mem_cellsSet {d : Host.Cell} {cs : List Host.Cell} {a : Nat} {b : Byte} (h : d ∈ cellsSet bg cs a b) :
    (d = (a, b) ∧ b ≠ bg a) ∨ d ∈ cs := by
  simp only [cellsSet] at h
  split at h
  · exact .inr (List.mem_of_mem_filter h)
  · rcases mem_cellsInsert.mp h with h | h
    · exact .inl ⟨h, ‹_›⟩
    · exact .inr (List.mem_of_mem_filter h)

theorem cellsInsert_rising (c : Host.Cell) (cs : List Host.Cell) (h : cs.Pairwise fun d e => d.1 < e.1)
    (hne : ∀ d ∈ cs, d.1 ≠ c.1) : (cellsInsert c cs).Pairwise fun d e => d.1 < e.1 := by
  induction cs with
  | nil => simp [cellsInsert]
  | cons d ds ih =>
    have hd := List.pairwise_cons.mp h
    simp only [cellsInsert]
    split
    · refine List.pairwise_cons.mpr ⟨fun e he => ?_, h⟩
      rcases List.mem_cons.mp he with rfl | he
      · assumption
      · exact Nat.lt_trans ‹_› (hd.1 e he)
    · refine List.pairwise_cons.mpr ⟨fun e he => ?_, ih hd.2 fun e he => hne e (List.mem_cons_of_mem d he)⟩
      rcases mem_cellsInsert.mp he with rfl | he
      · have := hne d List.mem_cons_self; omega
      · exact hd.1 e he

theorem cellsWf_iff {size : Nat} {cs : List Host.Cell} : cellsWf bg size cs = true ↔
    (cs.Pairwise fun c d => c.1 < d.1) ∧ ∀ c ∈ cs, c.1 < size ∧ c.2 ≠ bg c.1 := by
  simp [cellsWf]

/-- A write below the size keeps the canonical form. -/
theorem cellsWf_set {size : Nat} {cs : List Host.Cell} (h : cellsWf bg size cs = true) (a : Nat) (b : Byte)
    (ha : a < size) : cellsWf bg size (cellsSet bg cs a b) = true := by
  obtain ⟨hp, hc⟩ := cellsWf_iff.mp h
  refine cellsWf_iff.mpr ⟨?_, fun c hmem => ?_⟩
  · simp only [cellsSet]
    split
    · exact hp.filter _
    · exact cellsInsert_rising _ _ (hp.filter _) fun d hd => by simpa using (List.mem_filter.mp hd).2
  · rcases mem_cellsSet hmem with ⟨rfl, hb⟩ | hmem
    · exact ⟨ha, hb⟩
    · exact hc c hmem

end Sys2Proof.Machine
end

