-- ==== Sys2Proof/Laws/Sprite.lean ====
section
/-! SUPPORT. The laws of the framebuffer, and what a draw can do: every property that toggling a cell of the screen keeps
is kept by a draw. -/

namespace Sys2Proof.Machine

theorem fbIndex_lt {px py : Nat} (hx : px < 64) (hy : py < 32) : fbIndex px py < Config.fbW * Config.fbH := by
  simp only [fbIndex, Config.fbW, Config.fbH]; omega

theorem fbIndex_inj {px py qx qy : Nat} (hx : px < 64) (hq : qx < 64) :
    fbIndex px py = fbIndex qx qy ↔ px = qx ∧ py = qy := by
  simp only [fbIndex, Config.fbW]; omega

theorem pixel_setPixel (fb : List Host.Cell) {px py qx qy : Nat} (b : Byte) (hx : px < 64) (hq : qx < 64) :
    pixel (setPixel fb px py b) qx qy = if qx = px ∧ qy = py then b else pixel fb qx qy := by
  simp only [pixel, setPixel, cellsGet_set, fbIndex_inj hq hx]

theorem fbWf_setPixel {fb : List Host.Cell} (h : fbWf fb = true) {px py : Nat} (b : Byte) (hx : px < 64) (hy : py < 32) :
    fbWf (setPixel fb px py b) = true := cellsWf_set h _ b (fbIndex_lt hx hy)

theorem fbLitIsOne_setPixel {fb : List Host.Cell} (h : fbLitIsOne fb = true) (px py : Nat) (b : Byte)
    (hb : b = 0#8 ∨ b = pixelOn) : fbLitIsOne (setPixel fb px py b) = true := by
  simp only [fbLitIsOne, List.all_eq_true, decide_eq_true_eq] at h ⊢
  intro c hc
  rcases mem_cellsSet hc with ⟨rfl, hne⟩ | hc
  · rcases hb with rfl | rfl
    · exact absurd rfl hne
    · rfl
  · exact h c hc

theorem pixelCol_lt (ox : Byte) (col : Nat) : pixelCol ox col < 64 := Nat.mod_lt _ (by decide)

theorem pixelRow_lt (oy : Byte) (row : Nat) : pixelRow oy row < 32 := Nat.mod_lt _ (by decide)

/-- Toggling a cell, in one equation for each cell of the screen: on goes off, off goes on, the others stay. -/
theorem pixel_togglePixel (p : List Host.Cell × Bool) {px py qx qy : Nat} (hx : px < 64) (hq : qx < 64) :
    pixel (togglePixel px py p).1 qx qy =
      if qx = px ∧ qy = py then (if pixel p.1 px py ≠ 0#8 then 0#8 else pixelOn) else pixel p.1 qx qy := by
  unfold togglePixel
  split <;> simp only [pixel_setPixel _ _ hx hq]

/-- A toggle records a collision exactly when the cell was on. -/
theorem hit_togglePixel (p : List Host.Cell × Bool) (px py : Nat) :
    (togglePixel px py p).2 = (decide (pixel p.1 px py ≠ 0#8) || p.2) := by
  unfold togglePixel
  split <;> simp_all

/-- What toggling cells of the screen keeps, a list of conditional toggles keeps. -/
theorem foldl_keeps {α β : Type} (P : β → Prop) (f : β → α → β) (h : ∀ q a, P q → P (f q a)) (l : List α) {p : β}
    (hp : P p) : P (l.foldl f p) := by
  induction l generalizing p with
  | nil => exact hp
  | cons a l ih => exact ih (h p a hp)

/-- What toggling a cell of the screen keeps, a whole draw keeps. -/
theorem drawSprite_keeps (P : List Host.Cell × Bool → Prop)
    (h : ∀ px py q, px < 64 → py < 32 → P q → P (togglePixel px py q)) (ox oy : Byte) (rows : Nat → Byte) (n : Nat)
    {p : List Host.Cell × Bool} (hp : P p) : P (drawSprite ox oy rows n p) := by
  refine foldl_keeps P _ (fun q row hq => foldl_keeps P _ (fun r col hr => ?_) _ hq) _ hp
  split
  · exact h _ _ _ (pixelCol_lt ox col) (pixelRow_lt oy row) hr
  · exact hr

theorem fbWf_drawSprite (ox oy : Byte) (rows : Nat → Byte) (n : Nat) {p : List Host.Cell × Bool}
    (h : fbWf p.1 = true) : fbWf (drawSprite ox oy rows n p).1 = true := by
  refine drawSprite_keeps (fun q => fbWf q.1 = true) (fun px py q hx hy hq => ?_) ox oy rows n h
  unfold togglePixel
  split
  · exact fbWf_setPixel hq 0#8 hx hy
  · exact fbWf_setPixel hq pixelOn hx hy

theorem fbLitIsOne_drawSprite (ox oy : Byte) (rows : Nat → Byte) (n : Nat) {p : List Host.Cell × Bool}
    (h : fbLitIsOne p.1 = true) : fbLitIsOne (drawSprite ox oy rows n p).1 = true := by
  refine drawSprite_keeps (fun q => fbLitIsOne q.1 = true) (fun px py q _ _ hq => ?_) ox oy rows n h
  unfold togglePixel
  split
  · exact fbLitIsOne_setPixel hq _ _ _ (.inl rfl)
  · exact fbLitIsOne_setPixel hq _ _ _ (.inr rfl)

end Sys2Proof.Machine
end

