-- ==== Sys2Proof/Laws/State.lean ====
section
/-! SUPPORT. What each update of the state does to each of its fields, and to what a register reads as: one lemma per
field per update, so that no later proof unfolds an update. -/

namespace Sys2Proof.Machine

@[simp] theorem State.setV_mem (s : State) (x : Nibble) (b : Byte) : (s.setV x b).mem = s.mem := rfl
@[simp] theorem State.setV_v (s : State) (x : Nibble) (b : Byte) : (s.setV x b).v = s.v.set x.toNat b (by have := x.isLt; omega) := rfl
@[simp] theorem State.setV_i (s : State) (x : Nibble) (b : Byte) : (s.setV x b).i = s.i := rfl
@[simp] theorem State.setV_pc (s : State) (x : Nibble) (b : Byte) : (s.setV x b).pc = s.pc := rfl
@[simp] theorem State.setV_stack (s : State) (x : Nibble) (b : Byte) : (s.setV x b).stack = s.stack := rfl
@[simp] theorem State.setV_sp (s : State) (x : Nibble) (b : Byte) : (s.setV x b).sp = s.sp := rfl
@[simp] theorem State.setV_dt (s : State) (x : Nibble) (b : Byte) : (s.setV x b).dt = s.dt := rfl
@[simp] theorem State.setV_st (s : State) (x : Nibble) (b : Byte) : (s.setV x b).st = s.st := rfl
@[simp] theorem State.setV_key (s : State) (x : Nibble) (b : Byte) : (s.setV x b).key = s.key := rfl
@[simp] theorem State.setV_fb (s : State) (x : Nibble) (b : Byte) : (s.setV x b).fb = s.fb := rfl
@[simp] theorem State.setV_redraw (s : State) (x : Nibble) (b : Byte) : (s.setV x b).redraw = s.redraw := rfl
@[simp] theorem State.setV_draws (s : State) (x : Nibble) (b : Byte) : (s.setV x b).draws = s.draws := rfl

@[simp] theorem State.setI_mem (s : State) (a : Word) : (s.setI a).mem = s.mem := rfl
@[simp] theorem State.setI_v (s : State) (a : Word) : (s.setI a).v = s.v := rfl
@[simp] theorem State.setI_i (s : State) (a : Word) : (s.setI a).i = a := rfl
@[simp] theorem State.setI_pc (s : State) (a : Word) : (s.setI a).pc = s.pc := rfl
@[simp] theorem State.setI_stack (s : State) (a : Word) : (s.setI a).stack = s.stack := rfl
@[simp] theorem State.setI_sp (s : State) (a : Word) : (s.setI a).sp = s.sp := rfl
@[simp] theorem State.setI_dt (s : State) (a : Word) : (s.setI a).dt = s.dt := rfl
@[simp] theorem State.setI_st (s : State) (a : Word) : (s.setI a).st = s.st := rfl
@[simp] theorem State.setI_key (s : State) (a : Word) : (s.setI a).key = s.key := rfl
@[simp] theorem State.setI_fb (s : State) (a : Word) : (s.setI a).fb = s.fb := rfl
@[simp] theorem State.setI_redraw (s : State) (a : Word) : (s.setI a).redraw = s.redraw := rfl
@[simp] theorem State.setI_draws (s : State) (a : Word) : (s.setI a).draws = s.draws := rfl

@[simp] theorem State.setPc_mem (s : State) (a : Word) : (s.setPc a).mem = s.mem := rfl
@[simp] theorem State.setPc_v (s : State) (a : Word) : (s.setPc a).v = s.v := rfl
@[simp] theorem State.setPc_i (s : State) (a : Word) : (s.setPc a).i = s.i := rfl
@[simp] theorem State.setPc_pc (s : State) (a : Word) : (s.setPc a).pc = a := rfl
@[simp] theorem State.setPc_stack (s : State) (a : Word) : (s.setPc a).stack = s.stack := rfl
@[simp] theorem State.setPc_sp (s : State) (a : Word) : (s.setPc a).sp = s.sp := rfl
@[simp] theorem State.setPc_dt (s : State) (a : Word) : (s.setPc a).dt = s.dt := rfl
@[simp] theorem State.setPc_st (s : State) (a : Word) : (s.setPc a).st = s.st := rfl
@[simp] theorem State.setPc_key (s : State) (a : Word) : (s.setPc a).key = s.key := rfl
@[simp] theorem State.setPc_fb (s : State) (a : Word) : (s.setPc a).fb = s.fb := rfl
@[simp] theorem State.setPc_redraw (s : State) (a : Word) : (s.setPc a).redraw = s.redraw := rfl
@[simp] theorem State.setPc_draws (s : State) (a : Word) : (s.setPc a).draws = s.draws := rfl

@[simp] theorem State.advance_mem (s : State) (k : Word) : (s.advance k).mem = s.mem := rfl
@[simp] theorem State.advance_v (s : State) (k : Word) : (s.advance k).v = s.v := rfl
@[simp] theorem State.advance_i (s : State) (k : Word) : (s.advance k).i = s.i := rfl
@[simp] theorem State.advance_pc (s : State) (k : Word) : (s.advance k).pc = s.pc + k := rfl
@[simp] theorem State.advance_stack (s : State) (k : Word) : (s.advance k).stack = s.stack := rfl
@[simp] theorem State.advance_sp (s : State) (k : Word) : (s.advance k).sp = s.sp := rfl
@[simp] theorem State.advance_dt (s : State) (k : Word) : (s.advance k).dt = s.dt := rfl
@[simp] theorem State.advance_st (s : State) (k : Word) : (s.advance k).st = s.st := rfl
@[simp] theorem State.advance_key (s : State) (k : Word) : (s.advance k).key = s.key := rfl
@[simp] theorem State.advance_fb (s : State) (k : Word) : (s.advance k).fb = s.fb := rfl
@[simp] theorem State.advance_redraw (s : State) (k : Word) : (s.advance k).redraw = s.redraw := rfl
@[simp] theorem State.advance_draws (s : State) (k : Word) : (s.advance k).draws = s.draws := rfl

@[simp] theorem State.setFb_mem (s : State) (g : List Host.Cell) : (s.setFb g).mem = s.mem := rfl
@[simp] theorem State.setFb_v (s : State) (g : List Host.Cell) : (s.setFb g).v = s.v := rfl
@[simp] theorem State.setFb_i (s : State) (g : List Host.Cell) : (s.setFb g).i = s.i := rfl
@[simp] theorem State.setFb_pc (s : State) (g : List Host.Cell) : (s.setFb g).pc = s.pc := rfl
@[simp] theorem State.setFb_stack (s : State) (g : List Host.Cell) : (s.setFb g).stack = s.stack := rfl
@[simp] theorem State.setFb_sp (s : State) (g : List Host.Cell) : (s.setFb g).sp = s.sp := rfl
@[simp] theorem State.setFb_dt (s : State) (g : List Host.Cell) : (s.setFb g).dt = s.dt := rfl
@[simp] theorem State.setFb_st (s : State) (g : List Host.Cell) : (s.setFb g).st = s.st := rfl
@[simp] theorem State.setFb_key (s : State) (g : List Host.Cell) : (s.setFb g).key = s.key := rfl
@[simp] theorem State.setFb_fb (s : State) (g : List Host.Cell) : (s.setFb g).fb = g := rfl
@[simp] theorem State.setFb_redraw (s : State) (g : List Host.Cell) : (s.setFb g).redraw = s.redraw := rfl
@[simp] theorem State.setFb_draws (s : State) (g : List Host.Cell) : (s.setFb g).draws = s.draws := rfl

@[simp] theorem State.consumeDraw_mem (s : State) : (s.consumeDraw).mem = s.mem := rfl
@[simp] theorem State.consumeDraw_v (s : State) : (s.consumeDraw).v = s.v := rfl
@[simp] theorem State.consumeDraw_i (s : State) : (s.consumeDraw).i = s.i := rfl
@[simp] theorem State.consumeDraw_pc (s : State) : (s.consumeDraw).pc = s.pc := rfl
@[simp] theorem State.consumeDraw_stack (s : State) : (s.consumeDraw).stack = s.stack := rfl
@[simp] theorem State.consumeDraw_sp (s : State) : (s.consumeDraw).sp = s.sp := rfl
@[simp] theorem State.consumeDraw_dt (s : State) : (s.consumeDraw).dt = s.dt := rfl
@[simp] theorem State.consumeDraw_st (s : State) : (s.consumeDraw).st = s.st := rfl
@[simp] theorem State.consumeDraw_key (s : State) : (s.consumeDraw).key = s.key := rfl
@[simp] theorem State.consumeDraw_fb (s : State) : (s.consumeDraw).fb = s.fb := rfl
@[simp] theorem State.consumeDraw_redraw (s : State) : (s.consumeDraw).redraw = s.redraw := rfl
@[simp] theorem State.consumeDraw_draws (s : State) : (s.consumeDraw).draws = s.draws + 1 := rfl

@[simp] theorem State.setCollision_mem (s : State) (hit : Bool) : (s.setCollision hit).mem = s.mem := rfl
@[simp] theorem State.setCollision_v (s : State) (hit : Bool) : (s.setCollision hit).v = (s.setV 0xF#4 (collisionByte hit)).v := rfl
@[simp] theorem State.setCollision_i (s : State) (hit : Bool) : (s.setCollision hit).i = s.i := rfl
@[simp] theorem State.setCollision_pc (s : State) (hit : Bool) : (s.setCollision hit).pc = s.pc := rfl
@[simp] theorem State.setCollision_stack (s : State) (hit : Bool) : (s.setCollision hit).stack = s.stack := rfl
@[simp] theorem State.setCollision_sp (s : State) (hit : Bool) : (s.setCollision hit).sp = s.sp := rfl
@[simp] theorem State.setCollision_dt (s : State) (hit : Bool) : (s.setCollision hit).dt = s.dt := rfl
@[simp] theorem State.setCollision_st (s : State) (hit : Bool) : (s.setCollision hit).st = s.st := rfl
@[simp] theorem State.setCollision_key (s : State) (hit : Bool) : (s.setCollision hit).key = s.key := rfl
@[simp] theorem State.setCollision_fb (s : State) (hit : Bool) : (s.setCollision hit).fb = s.fb := rfl
@[simp] theorem State.setCollision_redraw (s : State) (hit : Bool) : (s.setCollision hit).redraw = s.redraw := rfl
@[simp] theorem State.setCollision_draws (s : State) (hit : Bool) : (s.setCollision hit).draws = s.draws := rfl

@[simp] theorem State.setRedraw_mem (s : State) : (s.setRedraw).mem = s.mem := rfl
@[simp] theorem State.setRedraw_v (s : State) : (s.setRedraw).v = s.v := rfl
@[simp] theorem State.setRedraw_i (s : State) : (s.setRedraw).i = s.i := rfl
@[simp] theorem State.setRedraw_pc (s : State) : (s.setRedraw).pc = s.pc := rfl
@[simp] theorem State.setRedraw_stack (s : State) : (s.setRedraw).stack = s.stack := rfl
@[simp] theorem State.setRedraw_sp (s : State) : (s.setRedraw).sp = s.sp := rfl
@[simp] theorem State.setRedraw_dt (s : State) : (s.setRedraw).dt = s.dt := rfl
@[simp] theorem State.setRedraw_st (s : State) : (s.setRedraw).st = s.st := rfl
@[simp] theorem State.setRedraw_key (s : State) : (s.setRedraw).key = s.key := rfl
@[simp] theorem State.setRedraw_fb (s : State) : (s.setRedraw).fb = s.fb := rfl
@[simp] theorem State.setRedraw_redraw (s : State) : (s.setRedraw).redraw = true := rfl
@[simp] theorem State.setRedraw_draws (s : State) : (s.setRedraw).draws = s.draws := rfl

@[simp] theorem State.setKey_mem (s : State) (k : Nibble) (b : Byte) : (s.setKey k b).mem = s.mem := rfl
@[simp] theorem State.setKey_v (s : State) (k : Nibble) (b : Byte) : (s.setKey k b).v = s.v := rfl
@[simp] theorem State.setKey_i (s : State) (k : Nibble) (b : Byte) : (s.setKey k b).i = s.i := rfl
@[simp] theorem State.setKey_pc (s : State) (k : Nibble) (b : Byte) : (s.setKey k b).pc = s.pc := rfl
@[simp] theorem State.setKey_stack (s : State) (k : Nibble) (b : Byte) : (s.setKey k b).stack = s.stack := rfl
@[simp] theorem State.setKey_sp (s : State) (k : Nibble) (b : Byte) : (s.setKey k b).sp = s.sp := rfl
@[simp] theorem State.setKey_dt (s : State) (k : Nibble) (b : Byte) : (s.setKey k b).dt = s.dt := rfl
@[simp] theorem State.setKey_st (s : State) (k : Nibble) (b : Byte) : (s.setKey k b).st = s.st := rfl
@[simp] theorem State.setKey_key (s : State) (k : Nibble) (b : Byte) : (s.setKey k b).key = s.key.set k.toNat b (by have := k.isLt; omega) := rfl
@[simp] theorem State.setKey_fb (s : State) (k : Nibble) (b : Byte) : (s.setKey k b).fb = s.fb := rfl
@[simp] theorem State.setKey_redraw (s : State) (k : Nibble) (b : Byte) : (s.setKey k b).redraw = s.redraw := rfl
@[simp] theorem State.setKey_draws (s : State) (k : Nibble) (b : Byte) : (s.setKey k b).draws = s.draws := rfl

@[simp] theorem State.clearRedraw_mem (s : State) : (s.clearRedraw).mem = s.mem := rfl
@[simp] theorem State.clearRedraw_v (s : State) : (s.clearRedraw).v = s.v := rfl
@[simp] theorem State.clearRedraw_i (s : State) : (s.clearRedraw).i = s.i := rfl
@[simp] theorem State.clearRedraw_pc (s : State) : (s.clearRedraw).pc = s.pc := rfl
@[simp] theorem State.clearRedraw_stack (s : State) : (s.clearRedraw).stack = s.stack := rfl
@[simp] theorem State.clearRedraw_sp (s : State) : (s.clearRedraw).sp = s.sp := rfl
@[simp] theorem State.clearRedraw_dt (s : State) : (s.clearRedraw).dt = s.dt := rfl
@[simp] theorem State.clearRedraw_st (s : State) : (s.clearRedraw).st = s.st := rfl
@[simp] theorem State.clearRedraw_key (s : State) : (s.clearRedraw).key = s.key := rfl
@[simp] theorem State.clearRedraw_fb (s : State) : (s.clearRedraw).fb = s.fb := rfl
@[simp] theorem State.clearRedraw_redraw (s : State) : (s.clearRedraw).redraw = false := rfl
@[simp] theorem State.clearRedraw_draws (s : State) : (s.clearRedraw).draws = s.draws := rfl

@[simp] theorem State.presetTimers_mem (s : State) (d t : Byte) : (s.presetTimers d t).mem = s.mem := rfl
@[simp] theorem State.presetTimers_v (s : State) (d t : Byte) : (s.presetTimers d t).v = s.v := rfl
@[simp] theorem State.presetTimers_i (s : State) (d t : Byte) : (s.presetTimers d t).i = s.i := rfl
@[simp] theorem State.presetTimers_pc (s : State) (d t : Byte) : (s.presetTimers d t).pc = s.pc := rfl
@[simp] theorem State.presetTimers_stack (s : State) (d t : Byte) : (s.presetTimers d t).stack = s.stack := rfl
@[simp] theorem State.presetTimers_sp (s : State) (d t : Byte) : (s.presetTimers d t).sp = s.sp := rfl
@[simp] theorem State.presetTimers_dt (s : State) (d t : Byte) : (s.presetTimers d t).dt = d := rfl
@[simp] theorem State.presetTimers_st (s : State) (d t : Byte) : (s.presetTimers d t).st = t := rfl
@[simp] theorem State.presetTimers_key (s : State) (d t : Byte) : (s.presetTimers d t).key = s.key := rfl
@[simp] theorem State.presetTimers_fb (s : State) (d t : Byte) : (s.presetTimers d t).fb = s.fb := rfl
@[simp] theorem State.presetTimers_redraw (s : State) (d t : Byte) : (s.presetTimers d t).redraw = s.redraw := rfl
@[simp] theorem State.presetTimers_draws (s : State) (d t : Byte) : (s.presetTimers d t).draws = s.draws := rfl

@[simp] theorem tick_mem (s : State) : (tick s).mem = s.mem := rfl
@[simp] theorem tick_v (s : State) : (tick s).v = s.v := rfl
@[simp] theorem tick_i (s : State) : (tick s).i = s.i := rfl
@[simp] theorem tick_pc (s : State) : (tick s).pc = s.pc := rfl
@[simp] theorem tick_stack (s : State) : (tick s).stack = s.stack := rfl
@[simp] theorem tick_sp (s : State) : (tick s).sp = s.sp := rfl
@[simp] theorem tick_dt (s : State) : (tick s).dt = countDown s.dt := rfl
@[simp] theorem tick_st (s : State) : (tick s).st = countDown s.st := rfl
@[simp] theorem tick_key (s : State) : (tick s).key = s.key := rfl
@[simp] theorem tick_fb (s : State) : (tick s).fb = s.fb := rfl
@[simp] theorem tick_redraw (s : State) : (tick s).redraw = s.redraw := rfl
@[simp] theorem tick_draws (s : State) : (tick s).draws = s.draws := rfl

theorem State.getV_setV_same (s : State) (x : Nibble) (b : Byte) : (s.setV x b).getV x = b := by
  simp [State.getV, State.setV]

theorem State.getV_setV_ne (s : State) (x y : Nibble) (b : Byte) (h : y ≠ x) : (s.setV x b).getV y = s.getV y := by
  have hxy : x.toNat ≠ y.toNat := fun e => h (BitVec.eq_of_toNat_eq e.symm)
  simp [State.getV, State.setV, Vector.getElem_set_ne, hxy]

/-- A register reads as the last byte written to it, `VF` like the others (10_state.md R11). -/
theorem State.getV_setV (s : State) (x y : Nibble) (b : Byte) :
    (s.setV x b).getV y = if y = x then b else s.getV y := by
  by_cases h : y = x
  · subst h; simp [State.getV_setV_same]
  · simp [h, State.getV_setV_ne]

@[simp] theorem State.setI_getV (s : State) (a : Word) (y : Nibble) : (s.setI a).getV y = s.getV y := rfl
@[simp] theorem State.setPc_getV (s : State) (a : Word) (y : Nibble) : (s.setPc a).getV y = s.getV y := rfl
@[simp] theorem State.advance_getV (s : State) (k : Word) (y : Nibble) : (s.advance k).getV y = s.getV y := rfl
@[simp] theorem State.setFb_getV (s : State) (g : List Host.Cell) (y : Nibble) : (s.setFb g).getV y = s.getV y := rfl
@[simp] theorem State.consumeDraw_getV (s : State) (y : Nibble) : (s.consumeDraw).getV y = s.getV y := rfl
@[simp] theorem State.setRedraw_getV (s : State) (y : Nibble) : (s.setRedraw).getV y = s.getV y := rfl
@[simp] theorem State.setKey_getV (s : State) (k : Nibble) (b : Byte) (y : Nibble) : (s.setKey k b).getV y = s.getV y := rfl
@[simp] theorem State.clearRedraw_getV (s : State) (y : Nibble) : (s.clearRedraw).getV y = s.getV y := rfl
@[simp] theorem State.presetTimers_getV (s : State) (d t : Byte) (y : Nibble) : (s.presetTimers d t).getV y = s.getV y := rfl
@[simp] theorem tick_getV (s : State) (y : Nibble) : (tick s).getV y = s.getV y := rfl

theorem State.setCollision_getV (s : State) (hit : Bool) (y : Nibble) :
    (s.setCollision hit).getV y = if y = 0xF#4 then collisionByte hit else s.getV y :=
  State.getV_setV s 0xF#4 y (collisionByte hit)

@[simp] theorem State.initWith_mem (font : Config.Font) (s : State) :
    (s.initWith font).mem = memSetBytes [] Config.fontBase font.toList := rfl
@[simp] theorem State.initWith_v (font : Config.Font) (s : State) : (s.initWith font).v = State.reset.v := rfl
@[simp] theorem State.initWith_i (font : Config.Font) (s : State) : (s.initWith font).i = State.reset.i := rfl
@[simp] theorem State.initWith_pc (font : Config.Font) (s : State) : (s.initWith font).pc = State.reset.pc := rfl
@[simp] theorem State.initWith_stack (font : Config.Font) (s : State) : (s.initWith font).stack = State.reset.stack := rfl
@[simp] theorem State.initWith_sp (font : Config.Font) (s : State) : (s.initWith font).sp = State.reset.sp := rfl
@[simp] theorem State.initWith_dt (font : Config.Font) (s : State) : (s.initWith font).dt = State.reset.dt := rfl
@[simp] theorem State.initWith_st (font : Config.Font) (s : State) : (s.initWith font).st = State.reset.st := rfl
@[simp] theorem State.initWith_key (font : Config.Font) (s : State) : (s.initWith font).key = State.reset.key := rfl
@[simp] theorem State.initWith_fb (font : Config.Font) (s : State) : (s.initWith font).fb = State.reset.fb := rfl
@[simp] theorem State.initWith_redraw (font : Config.Font) (s : State) : (s.initWith font).redraw = State.reset.redraw := rfl
@[simp] theorem State.initWith_draws (font : Config.Font) (s : State) : (s.initWith font).draws = s.draws := rfl

@[simp] theorem State.loadImage_mem (font : Config.Font) (image : List Byte) (s : State) :
    (s.loadImage font image).mem = memSetBytes (s.initWith font).mem Config.progBase image := rfl
@[simp] theorem State.loadImage_v (font : Config.Font) (image : List Byte) (s : State) :
    (s.loadImage font image).v = State.reset.v := rfl
@[simp] theorem State.loadImage_i (font : Config.Font) (image : List Byte) (s : State) :
    (s.loadImage font image).i = State.reset.i := rfl
@[simp] theorem State.loadImage_pc (font : Config.Font) (image : List Byte) (s : State) :
    (s.loadImage font image).pc = State.reset.pc := rfl
@[simp] theorem State.loadImage_stack (font : Config.Font) (image : List Byte) (s : State) :
    (s.loadImage font image).stack = State.reset.stack := rfl
@[simp] theorem State.loadImage_sp (font : Config.Font) (image : List Byte) (s : State) :
    (s.loadImage font image).sp = State.reset.sp := rfl
@[simp] theorem State.loadImage_dt (font : Config.Font) (image : List Byte) (s : State) :
    (s.loadImage font image).dt = State.reset.dt := rfl
@[simp] theorem State.loadImage_st (font : Config.Font) (image : List Byte) (s : State) :
    (s.loadImage font image).st = State.reset.st := rfl
@[simp] theorem State.loadImage_key (font : Config.Font) (image : List Byte) (s : State) :
    (s.loadImage font image).key = State.reset.key := rfl
@[simp] theorem State.loadImage_fb (font : Config.Font) (image : List Byte) (s : State) :
    (s.loadImage font image).fb = State.reset.fb := rfl
@[simp] theorem State.loadImage_redraw (font : Config.Font) (image : List Byte) (s : State) :
    (s.loadImage font image).redraw = State.reset.redraw := rfl
@[simp] theorem State.loadImage_draws (font : Config.Font) (image : List Byte) (s : State) :
    (s.loadImage font image).draws = s.draws := rfl

@[simp] theorem endCycle_next (t : State) : endCycle (.next t) = .next (tick t) := rfl
@[simp] theorem endCycle_fault (e : Fault) : endCycle (.fault e) = .fault e := rfl
@[simp] theorem endCycle_refused (r : Refusal) : endCycle (.refused r) = .refused r := rfl

/-- Two register files that read alike are equal. -/
theorem v_ext_getV {s t : State} (h : ∀ x, s.getV x = t.getV x) : s.v = t.v := by
  apply Vector.ext
  intro k hk
  have := h (BitVec.ofNat 4 k)
  simpa [State.getV, Nat.mod_eq_of_lt hk] using this

end Sys2Proof.Machine
end

