-- ==== Sys2Proof/Laws/Exec.lean ====
section
/-! SUPPORT. What executing an instruction can do, said once: the next state of each implemented instruction, and the
only two ways an instruction stops. -/

namespace Sys2Proof.Machine

/-- The state a successful draw leaves. -/
def drawnState (x y n : Nibble) (s : State) : State :=
  ((((s.setCollision (spriteDrawn x y n s).2).setFb (spriteDrawn x y n s).1).setRedraw).advance 2#16)

/-- If an instruction answers a next state, it is one of the seven, and the state is its own effect. -/
theorem exec_next_cases {i : Instr} {s t : State} (h : exec i s = .next t) :
    (∃ nnn, i = .jp nnn ∧ t = s.setPc (zext16 nnn)) ∨
    (∃ x nn, i = .se x nn ∧ t = if s.getV x = nn then s.advance 4#16 else s.advance 2#16) ∨
    (∃ x nn, i = .ldVx x nn ∧ t = (s.setV x nn).advance 2#16) ∨
    (∃ x nn, i = .add x nn ∧ t = (s.setV x (s.getV x + nn)).advance 2#16) ∨
    (∃ nnn, i = .ldI nnn ∧ t = (s.setI (zext16 nnn)).advance 2#16) ∨
    (∃ x nn, i = .rnd x nn ∧ t = (randomize s.nextDraw x nn s).consumeDraw) ∨
    (∃ x y n, i = .drw x y n ∧ spriteInBounds s n = true ∧ t = drawnState x y n s) := by
  cases i with
  | jp nnn => exact .inl ⟨nnn, rfl, (Host.Outcome.next.inj h).symm⟩
  | se x nn => exact .inr (.inl ⟨x, nn, rfl, (Host.Outcome.next.inj h).symm⟩)
  | ldVx x nn => exact .inr (.inr (.inl ⟨x, nn, rfl, (Host.Outcome.next.inj h).symm⟩))
  | add x nn => exact .inr (.inr (.inr (.inl ⟨x, nn, rfl, (Host.Outcome.next.inj h).symm⟩)))
  | ldI nnn => exact .inr (.inr (.inr (.inr (.inl ⟨nnn, rfl, (Host.Outcome.next.inj h).symm⟩))))
  | rnd x nn => exact .inr (.inr (.inr (.inr (.inr (.inl ⟨x, nn, rfl, (Host.Outcome.next.inj h).symm⟩)))))
  | drw x y n =>
    simp only [exec, execDrw] at h
    split at h
    · exact .inr (.inr (.inr (.inr (.inr (.inr ⟨x, y, n, rfl, ‹_›, (Host.Outcome.next.inj h).symm⟩)))))
    · cases h
  | unsupported0 u => cases h
  | unsupported2 u => cases h
  | unsupported4 u => cases h
  | unsupported5 u => cases h
  | unsupported8 u => cases h
  | unsupported9 u => cases h
  | unsupportedB u => cases h
  | unsupportedE u => cases h
  | unsupportedF u => cases h

/-- If an instruction faults, it is a word of an unsupported family, with its own word and `pc`, or a draw out of
bounds. -/
theorem exec_fault_cases {i : Instr} {s : State} {e : Fault} (h : exec i s = .fault e) :
    (i.isImplemented = false ∧ e = .unsupportedOpcode (encode i) s.pc) ∨
    (∃ x y n, i = .drw x y n ∧ spriteInBounds s n = false ∧ e = .invalidAddress 4096) := by
  cases i with
  | drw x y n =>
    simp only [exec, execDrw] at h
    split at h
    · cases h
    · exact .inr ⟨x, y, n, rfl, Bool.eq_false_iff.mpr ‹_›, (Host.Outcome.fault.inj h).symm⟩
  | jp nnn => cases h
  | se x nn => cases h
  | ldVx x nn => cases h
  | add x nn => cases h
  | ldI nnn => cases h
  | rnd x nn => cases h
  | unsupported0 u => exact .inl ⟨rfl, (Host.Outcome.fault.inj h).symm⟩
  | unsupported2 u => exact .inl ⟨rfl, (Host.Outcome.fault.inj h).symm⟩
  | unsupported4 u => exact .inl ⟨rfl, (Host.Outcome.fault.inj h).symm⟩
  | unsupported5 u => exact .inl ⟨rfl, (Host.Outcome.fault.inj h).symm⟩
  | unsupported8 u => exact .inl ⟨rfl, (Host.Outcome.fault.inj h).symm⟩
  | unsupported9 u => exact .inl ⟨rfl, (Host.Outcome.fault.inj h).symm⟩
  | unsupportedB u => exact .inl ⟨rfl, (Host.Outcome.fault.inj h).symm⟩
  | unsupportedE u => exact .inl ⟨rfl, (Host.Outcome.fault.inj h).symm⟩
  | unsupportedF u => exact .inl ⟨rfl, (Host.Outcome.fault.inj h).symm⟩

end Sys2Proof.Machine
end

