-- ==== Sys2Proof/Laws/Memory.lean ====
section
/-! SUPPORT. The laws of main memory: reading after writing, the canonical form, and when a fetch succeeds. -/

namespace Sys2Proof.Machine

theorem memByte_memSet (m : List Host.Cell) (a k : Nat) (b : Byte) :
    memByte (memSet m a b) k = if k = a then b else memByte m k := cellsGet_set m a k b

/-- Written bytes read back in their places, and every other address reads as before. -/
theorem memByte_memSetBytes (m : List Host.Cell) (a k : Nat) (bs : List Byte) :
    memByte (memSetBytes m a bs) k = if h : a ≤ k ∧ k - a < bs.length then bs[k - a] else memByte m k := by
  induction bs generalizing m a with
  | nil => simp [memSetBytes]
  | cons b bs ih =>
    rw [memSetBytes, ih, memByte_memSet]
    by_cases hk : k = a
    · subst hk; simp
    · by_cases ha : a + 1 ≤ k
      · have e : k - a = (k - (a + 1)) + 1 := by omega
        have hle : a ≤ k := by omega
        simp only [e, List.length_cons, List.getElem_cons_succ, hk, ha, hle, true_and, Nat.add_lt_add_iff_right, if_false]
      · have hle : ¬ a ≤ k := by omega
        simp [ha, hle, hk]

theorem memWf_memSet {m : List Host.Cell} (h : memWf m = true) (a : Nat) (b : Byte) (ha : a < Config.memSize) :
    memWf (memSet m a b) = true := cellsWf_set h a b ha

theorem memWf_memSetBytes {m : List Host.Cell} (h : memWf m = true) (a : Nat) (bs : List Byte)
    (ha : a + bs.length ≤ Config.memSize) : memWf (memSetBytes m a bs) = true := by
  induction bs generalizing m a with
  | nil => exact h
  | cons b bs ih =>
    simp only [List.length_cons] at ha
    exact ih (memWf_memSet h a b (by omega)) (a + 1) (by omega)

theorem memWf_reset : memWf State.reset.mem = true := by decide

/-- A one-byte read answers the byte exactly below 4096. -/
theorem memRead1_eq (m : List Host.Cell) (a : Nat) :
    memRead1 m a = if a < 4096 then .ok (memByte m a) else .error (.invalidAddress a) := by
  by_cases h : a < 4096 <;> simp [memRead1, Config.memSize, h, Nat.not_le.mpr, Nat.not_lt.mp]

/-- The fetch, in one equation: the word up to 4094, else the first bad address. -/
theorem fetch_eq (s : State) :
    fetch s = if s.pc.toNat ≤ 4094 then .ok (memByte s.mem s.pc.toNat ++ memByte s.mem (s.pc.toNat + 1))
      else .error (.invalidAddress (if 4096 ≤ s.pc.toNat then s.pc.toNat else 4096)) := by
  unfold fetch memRead2 Config.memSize
  by_cases h : s.pc.toNat ≤ 4094
  · have h1 : ¬ s.pc.toNat ≥ 4096 := by omega
    have h2 : ¬ s.pc.toNat + 1 ≥ 4096 := by omega
    simp [h, h1, h2]
  · by_cases h' : 4096 ≤ s.pc.toNat
    · simp [h, h']
    · have e : s.pc.toNat = 4095 := by omega
      simp [e]

theorem withFetchWord_keeps_memWf {s : State} (h : memWf s.mem = true) (nbits w : Nat) :
    memWf (s.withFetchWord nbits w).mem = true := by
  have hp : Config.progBase % 2 ^ 16 = 512 := by decide
  refine memWf_memSetBytes h _ _ ?_
  simp only [bytesOfWord, List.length_cons, List.length_nil]
  split
  · omega
  · simp only [BitVec.toNat_ofNat, hp, Config.memSize]; omega

end Sys2Proof.Machine
end

