-- ==== Sys2Proof/Laws/HostMoves.lean ====
section
/-! SUPPORT. The laws of `Init` and `Load` for any `FONT`: what memory reads as after them, and that it keeps its
canonical form. -/

namespace Sys2Proof.Machine

/-- Reset memory lists nothing, so outside the font it reads as zero. -/
theorem memByte_nil_outside_font (a : Nat) (h : a < 0x050 ∨ 0x09F < a) : memByte [] a = 0#8 := by
  have hn : ¬ (Config.fontBase ≤ a ∧ a < Config.fontBase + Config.fontLen) := by
    simp only [Config.fontBase, Config.fontLen]; omega
  simp [memByte, cellsGet, resetByte, hn]

/-- After `Init`, the font is in its place and every other byte is zero (70_reset_and_hazards.md R100). -/
theorem memByte_initWith (font : Config.Font) (s : State) (a : Nat) :
    memByte (s.initWith font).mem a = if h : 0x050 ≤ a ∧ a - 0x050 < 80 then font[a - 0x050] else 0#8 := by
  rw [State.initWith_mem, memByte_memSetBytes]
  by_cases h : 0x050 ≤ a ∧ a - 0x050 < 80
  · have h' : Config.fontBase ≤ a ∧ a - Config.fontBase < font.toList.length := by simpa [Config.fontBase] using h
    rw [dif_pos h, dif_pos h']
    simp [Config.fontBase]
  · have h' : ¬ (Config.fontBase ≤ a ∧ a - Config.fontBase < font.toList.length) := by simpa [Config.fontBase] using h
    rw [dif_neg h, dif_neg h', memByte_nil_outside_font a (by omega)]

theorem initWith_memWf (font : Config.Font) (s : State) : memWf (s.initWith font).mem = true :=
  memWf_memSetBytes rfl _ _ (by simp [Config.fontBase, Config.memSize])

/-- A load that `imageWf` accepts keeps the canonical form. -/
theorem loadImage_memWf (font : Config.Font) {image : List Byte} (h : imageWf image = true) (s : State) :
    memWf (s.loadImage font image).mem = true := by
  have hl : image.length ≤ 3584 := of_decide_eq_true h
  exact memWf_memSetBytes (initWith_memWf font s) _ _ (by simp only [Config.progBase, Config.memSize]; omega)

/-- `Init` depends on nothing of the state before it but the model's draw counter. -/
theorem initWith_eq_resetWith (font : Config.Font) (s : State) :
    s.initWith font = { State.resetWith font with draws := s.draws } := rfl

/-- The state after reset is the state after `Init` with the default font: unlisted memory reads as that font. -/
theorem resetWith_defaultFont : State.resetWith defaultFont = State.reset := by
  have h : memSetBytes [] Config.fontBase defaultFont.toList = [] := by decide +kernel
  rw [State.resetWith, State.initWith, h]
  rfl

end Sys2Proof.Machine
end

