-- ==== Sys2Proof/Laws/PerInstr.lean ====
section
/-! SUPPORT. Statements made of every instruction, one lemma per constructor. -/

namespace Sys2Proof.Laws

theorem mask_append (op : Nibble) (r : Imm12) : ((op ++ r : Word) &&& 0xF000#16) = (op ++ 0#12 : Word) := by
  have h : (0xF000#16) = (0xF#4 ++ 0#12 : Word) := by decide
  have ho : op &&& 0xF#4 = op := BitVec.and_allOnes
  rw [h, BitVec.and_append, ho, BitVec.and_zero]

theorem append_xnn (op x : Nibble) (nn : Byte) : (op ++ x ++ nn : Word) = (op ++ (x ++ nn : Imm12) : Word) := by
  rw [@BitVec.append_assoc 4 4 8 op x nn, BitVec.cast_eq]

theorem append_xyn (op x y n : Nibble) : (op ++ x ++ y ++ n : Word) = (op ++ (x ++ (y ++ n : Byte) : Imm12) : Word) := by
  rw [@BitVec.append_assoc 8 4 4 (op ++ x) y n, BitVec.cast_eq]
  exact append_xnn op x (y ++ n)

namespace FamilyBits

/-- An encoded instruction has its own row's `match` bits under the mask 0xF000 (30_encoding.md R48). -/
def Statement (i : Instr) : Prop := encode i &&& 0xF000#16 = i.matchBits

theorem jp (a : Imm12) : Statement (.jp a) := (mask_append _ a).trans rfl

theorem ldI (a : Imm12) : Statement (.ldI a) := (mask_append _ a).trans rfl

theorem unsupported0 (a : Imm12) : Statement (.unsupported0 a) := (mask_append _ a).trans rfl

theorem unsupported2 (a : Imm12) : Statement (.unsupported2 a) := (mask_append _ a).trans rfl

theorem unsupported4 (a : Imm12) : Statement (.unsupported4 a) := (mask_append _ a).trans rfl

theorem unsupported5 (a : Imm12) : Statement (.unsupported5 a) := (mask_append _ a).trans rfl

theorem unsupported8 (a : Imm12) : Statement (.unsupported8 a) := (mask_append _ a).trans rfl

theorem unsupported9 (a : Imm12) : Statement (.unsupported9 a) := (mask_append _ a).trans rfl

theorem unsupportedB (a : Imm12) : Statement (.unsupportedB a) := (mask_append _ a).trans rfl

theorem unsupportedE (a : Imm12) : Statement (.unsupportedE a) := (mask_append _ a).trans rfl

theorem unsupportedF (a : Imm12) : Statement (.unsupportedF a) := (mask_append _ a).trans rfl

theorem se (x : Nibble) (nn : Byte) : Statement (.se x nn) :=
  (congrArg (· &&& 0xF000#16) (append_xnn _ x nn)).trans ((mask_append _ _).trans rfl)

theorem ldVx (x : Nibble) (nn : Byte) : Statement (.ldVx x nn) :=
  (congrArg (· &&& 0xF000#16) (append_xnn _ x nn)).trans ((mask_append _ _).trans rfl)

theorem add (x : Nibble) (nn : Byte) : Statement (.add x nn) :=
  (congrArg (· &&& 0xF000#16) (append_xnn _ x nn)).trans ((mask_append _ _).trans rfl)

theorem rnd (x : Nibble) (nn : Byte) : Statement (.rnd x nn) :=
  (congrArg (· &&& 0xF000#16) (append_xnn _ x nn)).trans ((mask_append _ _).trans rfl)

theorem drw (x y n : Nibble) : Statement (.drw x y n) :=
  (congrArg (· &&& 0xF000#16) (append_xyn _ x y n)).trans ((mask_append _ _).trans rfl)

end FamilyBits

end Sys2Proof.Laws
end

