-- ==== Sys2Proof/Laws/Step.lean ====
section
/-! SUPPORT. What a step and a host move can do, said once. -/

namespace Sys2Proof.Machine

/-- A step from a fetchable `pc` executes the word there and ends the cycle. -/
theorem step_of_le (s : State) (h : s.pc.toNat ≤ 4094) :
    step s = endCycle (exec (decodeWord (memByte s.mem s.pc.toNat ++ memByte s.mem (s.pc.toNat + 1))) s) := by
  simp [step, fetch_eq, h]

/-- A step from any other `pc` fails in the fetch. -/
theorem step_of_gt (s : State) (h : 4094 < s.pc.toNat) :
    step s = .fault (.invalidAddress (if 4096 ≤ s.pc.toNat then s.pc.toNat else 4096)) := by
  simp [step, fetch_eq, raise, Nat.not_le.mpr h]

/-- If a step answers a next state, the fetch succeeded, the decoded instruction answered a state, and the step ticked
it. -/
theorem step_next_cases {s t : State} (h : step s = .next t) :
    ∃ w u, fetch s = .ok w ∧ exec (decodeWord w) s = .next u ∧ t = tick u := by
  unfold step at h
  split at h
  · cases h
  · rename_i w hw
    cases hu : exec (decodeWord w) s with
    | next u => rw [hu] at h; exact ⟨w, u, hw, hu, (Host.Outcome.next.inj h).symm⟩
    | fault e => rw [hu] at h; cases h
    | refused r => rw [hu] at h; cases h

end Sys2Proof.Machine
end

