-- ==== Sys2Proof/Tests/Slice0.lean ====
section
/-! SUPPORT. The model's own tests, with expected values from 95_test_vectors.md or worked by hand from the rules, and
for each statement with hypotheses a witness that meets them. -/

namespace Sys2Proof.Tests
open Sys2Proof Sys2Proof.Machine

/-- The outcome is a next state that `p` accepts. -/
def nextAnd (o : Host.Outcome State Fault Refusal) (p : State → Bool) : Bool :=
  match o with
  | .next t => p t
  | .fault _ => false
  | .refused _ => false

/-- The outcome is the fault `e`. -/
def faults (o : Host.Outcome State Fault Refusal) (e : Fault) : Bool :=
  match o with
  | .next _ => false
  | .fault e' => decide (e' = e)
  | .refused _ => false

theorem of_nextAnd {o : Host.Outcome State Fault Refusal} {p : State → Bool} (h : nextAnd o p = true) :
    ∃ t, o = .next t ∧ p t = true := by
  cases o with
  | next t => exact ⟨t, rfl, h⟩
  | fault e => simp [nextAnd] at h
  | refused r => simp [nextAnd] at h

theorem of_faults {o : Host.Outcome State Fault Refusal} {e : Fault} (h : faults o e = true) : o = .fault e := by
  cases o with
  | next t => simp [faults] at h
  | fault e' => simpa [faults] using h
  | refused r => simp [faults] at h

/-- The state after `Init`, with `pc` at `a` and the word `w` there. -/
def prog (a w : Word) : State := { State.reset with pc := a }.withFetchWord 16 w.toNat

/-- `s` with the byte `b` of memory at `a`. -/
def withByte (s : State) (a : Nat) (b : Byte) : State := { s with mem := memSet s.mem a b }

/-! ### Well-formedness -/

theorem test_wf_refuses_unsupported0 : (Instr.unsupported0 0x0E0).wf = false := by decide
theorem test_wf_refuses_unsupported2 : (Instr.unsupported2 0x345).wf = false := by decide
theorem test_wf_refuses_unsupported4 : (Instr.unsupported4 0xA12).wf = false := by decide
theorem test_wf_refuses_unsupported5 : (Instr.unsupported5 0xAB0).wf = false := by decide
theorem test_wf_refuses_unsupported8 : (Instr.unsupported8 0x124).wf = false := by decide
theorem test_wf_refuses_unsupported9 : (Instr.unsupported9 0xAB0).wf = false := by decide
theorem test_wf_refuses_unsupportedB : (Instr.unsupportedB 0x300).wf = false := by decide
theorem test_wf_refuses_unsupportedE : (Instr.unsupportedE 0x19E).wf = false := by decide
theorem test_wf_refuses_unsupportedF : (Instr.unsupportedF 0x107).wf = false := by decide
theorem test_wf_accepts_the_seven : (Instr.jp 0xFFF).wf ∧ (Instr.se 0xF 0xFF).wf ∧ (Instr.ldVx 0 0).wf ∧
    (Instr.add 1 2).wf ∧ (Instr.ldI 0x050).wf ∧ (Instr.rnd 3 0).wf ∧ (Instr.drw 0 0 0).wf := by decide

/-- Vector S2. -/
theorem test_imageWf_refuses_3585_bytes : imageWf (List.replicate 3585 0xAB#8) = false := by
  rw [imageWf, List.length_replicate]
  decide
theorem test_imageWf_accepts_3584_and_0_bytes :
    imageWf (List.replicate 3584 0xAB#8) = true ∧ imageWf [] = true := by
  rw [imageWf, List.length_replicate]
  decide

/-! ### Decoding: words written out bit by bit from 30_encoding.md R45 and R48 -/

theorem test_decode_jp : decodeWord 0b0001_101010111100#16 = .jp 0xABC := by decide
theorem test_decode_se : decodeWord 0b0011_0101_01111111#16 = .se 5 0x7F := by decide
theorem test_decode_ldVx : decodeWord 0b0110_1010_00000001#16 = .ldVx 0xA 1 := by decide
theorem test_decode_add : decodeWord 0b0111_1111_00000010#16 = .add 0xF 2 := by decide
theorem test_decode_ldI : decodeWord 0b1010_000001010000#16 = .ldI 0x050 := by decide
theorem test_decode_rnd : decodeWord 0b1100_0011_00001111#16 = .rnd 3 0x0F := by decide
theorem test_decode_drw : decodeWord 0b1101_0001_0010_1111#16 = .drw 1 2 0xF := by decide
theorem test_decode_unsupported0 : decodeWord 0b0000_000011100000#16 = .unsupported0 0x0E0 := by decide
theorem test_decode_unsupported2 : decodeWord 0b0010_001101000101#16 = .unsupported2 0x345 := by decide
theorem test_decode_unsupported4 : decodeWord 0b0100_101000010010#16 = .unsupported4 0xA12 := by decide
theorem test_decode_unsupported5 : decodeWord 0b0101_101010110000#16 = .unsupported5 0xAB0 := by decide
theorem test_decode_unsupported8 : decodeWord 0b1000_000100100100#16 = .unsupported8 0x124 := by decide
theorem test_decode_unsupported9 : decodeWord 0b1001_101010110000#16 = .unsupported9 0xAB0 := by decide
theorem test_decode_unsupportedB : decodeWord 0b1011_001100000000#16 = .unsupportedB 0x300 := by decide
theorem test_decode_unsupportedE : decodeWord 0b1110_000110011110#16 = .unsupportedE 0x19E := by decide
theorem test_decode_unsupportedF : decodeWord 0b1111_000100000111#16 = .unsupportedF 0x107 := by decide

/-- 20_memory.md R32: the first byte is the high one; the bytes after the instruction stay. -/
theorem test_decode_is_big_endian : decode [0x61, 0x03, 0xA0] = .ok (.ldVx 1 3, [0xA0]) := by decide
theorem test_decode_refuses_one_byte : decode [0x61] = .error .truncated := by decide
theorem test_encode_drw : encodeBytes (.drw 0 1 5) = [0xD0, 0x15] := by decide
theorem test_tableWord_of_a_row : decodeTableWord 16 0xD015 = some (.drw 0 1 5) ∧
    decodeTableWord 16 0xFFFF = some (.unsupportedF 0xFFF) ∧ decodeTableWord 17 0 = none := by decide

/-! ### One step of each instruction: 95_test_vectors.md -/

/-- V-C1. -/
theorem test_jp : nextAnd (step (prog 0x200 0x1ABC)) (fun t => t.pc = 0xABC#16) = true := by decide +kernel
/-- V-C4. -/
theorem test_jp_to_the_last_byte :
    nextAnd (step (prog 0x200 0x1FFF)) (fun t => faults (step t) (.invalidAddress 4096)) = true := by decide +kernel
/-- V-C8. -/
theorem test_se_differs : nextAnd (step ((prog 0x300 0x3580).setV 5 0x7F)) (fun t => t.pc = 0x302#16) = true := by
  decide +kernel
/-- V-C10. -/
theorem test_se_taken_at_4094 : nextAnd (step (prog 0xFFE 0x3000))
    (fun t => t.pc = 0x1002#16 && faults (step t) (.invalidAddress 4098)) = true := by decide +kernel
/-- V-R1. -/
theorem test_ldVx : nextAnd (step ((prog 0x200 0x6A00).setV 0xA 0x33)) (fun t => t.getV 0xA = 0 && t.pc = 0x202#16) =
    true := by decide +kernel
/-- V-R2. -/
theorem test_ldVx_vf : nextAnd (step (prog 0x200 0x6FFF)) (fun t => t.getV 0xF = 0xFF#8) = true := by decide +kernel
/-- V-R4. -/
theorem test_add_writes_no_carry : nextAnd (step (((prog 0x200 0x7180).setV 1 0x80).setV 0xF 0x55))
    (fun t => t.getV 1 = 0 && t.getV 0xF = 0x55#8) = true := by decide +kernel
/-- V-R8. -/
theorem test_add_to_vf : nextAnd (step ((prog 0x200 0x7F02).setV 0xF 0xFF)) (fun t => t.getV 0xF = 1#8) = true := by
  decide +kernel
/-- V-R10. -/
theorem test_ldI : nextAnd (step (prog 0x200 0xAFFF)) (fun t => t.i = 0x0FFF#16 && t.pc = 0x202#16) = true := by
  decide +kernel
/-- V-N2: a mask of 0 gives 0 whatever is drawn. -/
theorem test_rnd_of_mask_0 : ∃ t, exec (.rnd 3 0) ((prog 0x200 0xC300).setV 3 0x99) = .next t ∧ t.getV 3 = 0#8 := by
  refine ⟨_, rfl, ?_⟩
  simp [randomize, State.getV_setV_same]
/-- V-D3, its second draw: the row 0x18 on the lit cells 0 to 3. -/
theorem test_drw_collides :
    nextAnd (step (withByte { prog 0x200 0xD011 with fb := [(0, 1), (1, 1), (2, 1), (3, 1)], i := 0x300 } 0x300 0x18))
      (fun t => t.fb = [(0, 1), (1, 1), (2, 1), (4, 1)] && t.getV 0xF = 1#8 && t.redraw) = true := by decide +kernel
/-- V-D6: both axes wrap; `VF` was 0x77. -/
theorem test_drw_wraps_both_axes :
    nextAnd (step (withByte (withByte ((({ prog 0x200 0xD012 with i := 0x300 }.setV 0 63).setV 1 31).setV 0xF 0x77)
        0x300 0xFF) 0x301 0x81))
      (fun t => t.fb = [(6, 1), (63, 1)] ++ [(1984, 1), (1985, 1), (1986, 1), (1987, 1)] ++
        [(1988, 1), (1989, 1), (1990, 1), (2047, 1)] && t.getV 0xF = 0#8) = true := by decide +kernel
/-- The words of 95_test_vectors.md's list of unsupported encodings, one of each family. -/
theorem test_unsupported_words :
    [0x0000, 0x2345, 0x4A12, 0x5AB0, 0x8AB7, 0x9AB0, 0xB300, 0xE1A1, 0xF165].all (fun w : Nat =>
      faults (step (prog 0x200 (BitVec.ofNat 16 w))) (.unsupportedOpcode (BitVec.ofNat 16 w) 0x200)) = true := by
  decide +kernel
/-- V-T6: both signals in the cycle from 1 to 0. -/
theorem test_timers : (cycle { prog 0x200 0x6100 with dt := 2, st := 1 }).1 = .ok true true ∧
    (cycle { prog 0x200 0x6100 with dt := 2, st := 1 }).2.dt = 1#8 := by decide +kernel
/-- V-T8. -/
theorem test_no_tick_on_a_failed_cycle : cycle { prog 0x200 0x0000 with dt := 5, st := 5 } =
    (.err (.unsupportedOpcode 0x0000 0x200), { prog 0x200 0x0000 with dt := 5, st := 5 }) := by decide +kernel
/-- A font that is not the default one: its bytes stand at 0x050, and a load keeps them. -/
theorem test_load_keeps_another_font :
    let t := (hostMove (Vector.replicate 80 0x3C) (.load [0xAB]) State.reset).2
    memByte t.mem 0x04F = 0#8 ∧ memByte t.mem 0x050 = 0x3C#8 ∧ memByte t.mem 0x09F = 0x3C#8 ∧
      memByte t.mem 0x200 = 0xAB#8 := by decide +kernel
/-- S2, on a short image. -/
theorem test_load : (hostMove defaultFont (.load [0xAB, 0xCD]) ({ State.reset with redraw := true, fb := [(3, 1)] }.setV 3 7)) =
    (.done, { State.reset with mem := [(0x200, 0xAB), (0x201, 0xCD)] }) := by decide +kernel

/-! ### Witnesses: states and operands that meet the hypotheses of each statement -/

/-- Words of the families that `OpcodeMapIsByHighNibble`, the per-instruction statements and
`UnsupportedFamiliesRaiseUnsupportedOpcode` name, at both ends of their operands. -/
theorem witness_words_of_every_family :
    (0x1FFF#16).toNat / 4096 = 0x1 ∧ (0x3000#16).toNat / 4096 = 0x3 ∧ (0x6FFF#16).toNat / 4096 = 0x6 ∧
    (0x7000#16).toNat / 4096 = 0x7 ∧ (0xAFFF#16).toNat / 4096 = 0xA ∧ (0xC000#16).toNat / 4096 = 0xC ∧
    (0xDFFF#16).toNat / 4096 = 0xD ∧ (0xFFFF#16).toNat / 4096 = 0xF := by decide

/-- `MemReadChecksTheRange`: each clause at the edge of memory. -/
theorem witness_MemReadChecksTheRange :
    memRead1 [(4095, 7)] 4095 = .ok 7 ∧ memRead1 [] 4096 = .error (.invalidAddress 4096) ∧
    memRead2 [(4094, 1), (4095, 7)] 4094 = .ok 0x0107 ∧ memRead2 [] 4096 = .error (.invalidAddress 4096) ∧
    memRead2 [] 4095 = .error (.invalidAddress 4096) := by decide

/-- `FetchReadsTheWordAtPc`: `pc` at 4094, 4095, 4096 and 4098. -/
theorem witness_FetchReadsTheWordAtPc :
    (fetch (prog 4094 0x3000) = .ok 0x3000 ∧ (prog 4094 0x3000).pc.toNat ≤ 4094) ∧
    faults (step { State.reset with pc := 4095 }) (.invalidAddress 4096) = true ∧
    faults (step { State.reset with pc := 4096 }) (.invalidAddress 4096) = true ∧
    faults (step { State.reset with pc := 4098 }) (.invalidAddress 4098) = true := by decide +kernel

/-- `MemoriesThatReadAlikeAreEqual`: one memory reached by two orders of writing. -/
theorem witness_MemoriesThatReadAlikeAreEqual :
    memWf (memSet (memSet [] 0x201 2) 0x200 1) = true ∧ memWf (memSet (memSet [] 0x200 1) 0x201 2) = true ∧
    ∀ a, a < 4096 → memByte (memSet (memSet [] 0x201 2) 0x200 1) a = memByte (memSet (memSet [] 0x200 1) 0x201 2) a :=
  ⟨by decide, by decide, fun _ _ => rfl⟩

/-- `StoredFetchWordIsFetched`: at the last address an instruction has, and an address beside it. -/
theorem witness_StoredFetchWordIsFetched : State.reset.pc.toNat ≤ 4094 ∧ { State.reset with pc := 4094 }.pc.toNat ≤ 4094 ∧
    (4093 : Nat) ≠ 4094 ∧ (4093 : Nat) ≠ 4094 + 1 := by decide

/-- `JpSetsPcToTheTarget`, its last clause. -/
theorem witness_JpSetsPcToTheTarget : ∃ t, exec (.jp 0xFFF#12) State.reset = .next t := ⟨_, rfl⟩

/-- `SeSkipsWhenEqual`: both outcomes, and `pc` = 4094. -/
theorem witness_SeSkipsWhenEqual : State.reset.getV 5 = 0#8 ∧ State.reset.getV 5 ≠ 1#8 ∧
    { State.reset with pc := 4094 }.pc.toNat = 4094 ∧
    ∃ t, exec (.se 5 1) { State.reset with pc := 4094 } = .next t :=
  ⟨by decide, by decide, by decide, (of_nextAnd (p := fun _ => true) (by decide)).imp fun _ h => h.1⟩

/-- The frame clauses of the register statements: `V[2]` beside `V[1]`, and a word of each family. -/
theorem witness_register_frames : (2#4 : Nibble) ≠ 1#4 ∧ (0xE#4 : Nibble) ≠ 0xF#4 ∧
    (0x6105#16).toNat / 4096 = 0x6 ∧ (0x71FF#16).toNat / 4096 = 0x7 ∧ (0xA050#16).toNat / 4096 = 0xA := by decide

/-- `DrwOutOfBoundsFaults`, both clauses (vector V-D13). -/
theorem witness_DrwOutOfBoundsFaults :
    let s := { prog 0x200 0xD00F with i := 0xFF2 }
    4096 < s.i.toNat + (15#4).toNat ∧ s.Fetchable ∧ s.wordAtPc.toNat / 4096 = 0xD ∧
      4096 < s.i.toNat + s.wordAtPc.toNat % 16 ∧ faults (step s) (.invalidAddress 4096) = true := by
  unfold State.Fetchable
  decide +kernel

/-- `DrwCompletesInBounds`: the last row at 4095 (vector V-D12), and no rows at all. -/
theorem witness_DrwCompletesInBounds : (0xFF1#16).toNat + (15#4).toNat ≤ 4096 ∧ (0xFFF#16).toNat + (0#4).toNat ≤ 4096 ∧
    nextAnd (step { prog 0x200 0xD00F with i := 0xFF1 }) (fun t => t.redraw) = true ∧
    nextAnd (step { prog 0x200 0xD000 with i := 0xFFF }) (fun t => t.redraw) = true := by decide +kernel

/-- A draw of one row 0x80 at (0, 0): the sprite covers that cell alone. -/
def oneDot : State := withByte { State.reset with i := 0x300 } 0x300 0x80

theorem oneDot_covers : SpriteCovers oneDot 0 1 1 0 0 := by
  refine ⟨0, 0, by decide, by decide, ?_⟩
  unfold SpriteBitFallsOn
  decide +kernel

/-- `DrwXorsTheSpriteIntoTheFramebuffer`: it draws; the cell (0, 0) is covered, off before and on after. -/
theorem witness_DrwXors_off : (∃ t, exec (.drw 0 1 1) oneDot = .next t) ∧ SpriteCovers oneDot 0 1 1 0 0 ∧
    ∀ px py, px < 64 → py < 32 → SpriteCovers oneDot 0 1 1 px py → pixel oneDot.fb px py = 0#8 :=
  ⟨(of_nextAnd (p := fun _ => true) (by decide +kernel)).imp fun _ h => h.1, oneDot_covers, fun _ _ _ _ _ => rfl⟩

/-- The same, on a lit cell: there is a collision. -/
theorem witness_DrwXors_on : (∃ t, exec (.drw 0 1 1) { oneDot with fb := [(0, 1)] } = .next t) ∧
    ∃ px py, px < 64 ∧ py < 32 ∧ SpriteCovers { oneDot with fb := [(0, 1)] } 0 1 1 px py ∧
      pixel [(0, 1)] px py ≠ 0#8 :=
  ⟨(of_nextAnd (p := fun _ => true) (by decide +kernel)).imp fun _ h => h.1,
    0, 0, by decide, by decide, oneDot_covers, by decide⟩

/-- A cell the one-row sprite does not cover. -/
theorem witness_DrwXors_uncovered : ¬ SpriteCovers oneDot 0 1 1 0 1 := by
  rintro ⟨row, col, hr, -, -, -, hy⟩
  have h1 : row < 1 := hr
  have h2 : row = 0 := by omega
  subst h2
  exact absurd hy (by decide +kernel)

/-- `NoCellIsTouchedTwice`: the last row and column of the tallest sprite, at the wrapping corner. -/
theorem witness_NoCellIsTouchedTwice : (14 : Nat) < 15 ∧ (7 : Nat) < 8 ∧
    fbIndex (pixelCol 63 7) (pixelRow 31 14) = fbIndex (pixelCol 63 7) (pixelRow 31 14) := by decide

/-- `DrawingTwiceRestoresTheScreen`: both draws complete, and every covered cell was off. -/
theorem witness_DrawingTwiceRestoresTheScreen : (0#4 : Nibble) ≠ 0xF#4 ∧ (1#4 : Nibble) ≠ 0xF#4 ∧
    (∃ t u, exec (.drw 0 1 1) oneDot = .next t ∧ exec (.drw 0 1 1) t = .next u) ∧
    (∀ px py, px < 64 → py < 32 → SpriteCovers oneDot 0 1 1 px py → pixel oneDot.fb px py = 0#8) ∧
    ∃ px py, px < 64 ∧ py < 32 ∧ SpriteCovers oneDot 0 1 1 px py := by
  refine ⟨by decide, by decide, ?_, fun _ _ _ _ _ => rfl, 0, 0, by decide, by decide, oneDot_covers⟩
  obtain ⟨t, ht, hp⟩ := of_nextAnd (o := exec (.drw 0 1 1) oneDot)
    (p := fun t => nextAnd (exec (.drw 0 1 1) t) fun _ => true) (by decide +kernel)
  obtain ⟨u, hu, -⟩ := of_nextAnd hp
  exact ⟨t, u, ht, hu⟩

/-- `SpriteWrapsAtTheRightEdge` (vector S5). -/
theorem witness_SpriteWrapsAtTheRightEdge :
    let s := withByte ({ State.reset with i := 0x206 }.setV 0 63) 0x206 0xFF
    s.fb = [] ∧ (s.getV 0).toNat = 63 ∧ (s.getV 1).toNat = 0 ∧ memByte s.mem s.i.toNat = 0xFF#8 ∧
      nextAnd (exec (.drw 0 1 1#4) s) (fun _ => true) = true := by decide +kernel

/-- `UnsupportedFamiliesRaiseUnsupportedOpcode`, its last clause: a state for each family. -/
theorem witness_UnsupportedFamilies :
    [0x0000, 0x2345, 0x4A12, 0x5AB0, 0x8124, 0x9AB0, 0xB300, 0xE19E, 0xFFFF].all (fun w : Nat =>
      let s := prog 0x200 (BitVec.ofNat 16 w)
      decide (s.pc.toNat ≤ 4094) && decide (s.wordAtPc.toNat = w)) = true := by decide +kernel

/-- `StepRunsTheDecodedInstruction`: an instruction that completes, one that faults. -/
theorem witness_StepRunsTheDecodedInstruction :
    decode [memByte (prog 0x200 0x6005).mem 0x200, memByte (prog 0x200 0x6005).mem 0x201] = .ok (.ldVx 0 5, []) ∧
    decode [memByte State.reset.mem 0x200, memByte State.reset.mem 0x201] = .ok (.unsupported0 0, []) ∧
    (prog 0x200 0x6005).Fetchable ∧ State.reset.Fetchable := by
  unfold State.Fetchable
  decide

/-- `CycleFailsExactlyInThreeWays` and `FailedCycleIsAFixedPoint`: each of the three failures. -/
theorem witness_failed_cycles :
    cycle { State.reset with pc := 4095 } = (.err (.invalidAddress 4096), { State.reset with pc := 4095 }) ∧
    cycle State.reset = (.err (.unsupportedOpcode 0 0x200), State.reset) ∧
    cycle { prog 0x200 0xD002 with i := 0xFFF } = (.err (.invalidAddress 4096), { prog 0x200 0xD002 with i := 0xFFF }) := by
  decide +kernel

/-- Cycles that complete, one of each family and both outcomes of a skip, with the family they are of: for
`PcAfterACycle`, `EachElementHasItsOwnWriters`, `KeysStackAndTimersAreNeverRead`, `OnlyRndSeesTheRandomSource`,
`TimersTickOncePerSuccessfulCycle` and `EveryStepKeepsTheInvariant`. -/
theorem witness_completing_cycles :
    [0x1ABC, 0x3500, 0x3501, 0x6AFF, 0x7180, 0xA050, 0xD015].all (fun w : Nat =>
      let s := prog 0x200 (BitVec.ofNat 16 w)
      decide (s.wordAtPc.toNat = w) && nextAnd (step s) fun _ => true) = true := by decide +kernel

theorem witness_completing_rnd : (prog 0x200 0xC30F).wordAtPc.toNat / 4096 = 0xC ∧
    ∃ t, step (prog 0x200 0xC30F) = .next t :=
  ⟨by decide, (of_nextAnd (p := fun _ => true) (by decide)).imp fun _ h => h.1⟩

theorem witness_skip_taken_and_not : (prog 0x200 0x3500).getV (fieldX (prog 0x200 0x3500).wordAtPc) =
      fieldNN (prog 0x200 0x3500).wordAtPc ∧
    (prog 0x200 0x3501).getV (fieldX (prog 0x200 0x3501).wordAtPc) ≠ fieldNN (prog 0x200 0x3501).wordAtPc := by decide

/-- `EvenPcStaysEven`: a jump to an odd address and a jump to an even one. -/
theorem witness_EvenPcStaysEven : (prog 0x200 0x1201).pc.toNat % 2 = 0 ∧
    nextAnd (step (prog 0x200 0x1201)) (fun t => t.pc.toNat % 2 = 1) = true ∧
    nextAnd (step (prog 0x200 0x1202)) (fun t => t.pc.toNat % 2 = 0) = true := by decide

/-- `AudioSignalsFollowTheSoundTimer`: the sound timer at 2, 1 and 0. -/
theorem witness_AudioSignals : (cycle { prog 0x200 0x6100 with st := 2 }).1 = .ok true false ∧
    (cycle { prog 0x200 0x6100 with st := 1 }).1 = .ok true true ∧ (cycle (prog 0x200 0x6100)).1 = .ok false false := by
  decide +kernel

/-- The jump to itself at 0x200. -/
def spinner : State := { prog 0x200 0x1200 with dt := 2 }

/-- `SelfJumpSpinsForEver`. -/
theorem witness_SelfJumpSpinsForEver : spinner.Fetchable ∧ spinner.wordAtPc.toNat = 0x1000 + spinner.pc.toNat := by
  unfold State.Fetchable
  decide

/-- `TimersCountDownOverARun`: a run past 0 (vector S8). -/
theorem witness_TimersCountDownOverARun : ∃ t, spinner.RunsTo 3 t ∧ t.dt = 0#8 := by
  obtain ⟨t, ht, hp⟩ := of_nextAnd (o := Sys2Proof.core.run 3 spinner) (p := fun t : State => t.dt = 0#8) (by decide +kernel)
  exact ⟨t, ht, by simpa using hp⟩

/-- `LoadThenAddSums`, at the highest `pc` it holds at (vector S3: 0xF0 + 0x20). -/
theorem witness_LoadThenAddSums :
    let s := withByte (withByte (prog 4092 0x62F0) 4094 0x72) 4095 0x20
    s.pc.toNat ≤ 4092 ∧ s.wordAtPc = encode (.ldVx 2 0xF0) ∧
      memByte s.mem (s.pc.toNat + 2) ++ memByte s.mem (s.pc.toNat + 3) = encode (.add 2 0x20) := by decide

/-- `ResetIsTheTableOfInit` and `LoadPlacesTheImage`: the longest image and the empty one; the addresses at the edges of
the font. -/
theorem witness_images : (List.replicate 3584 0xAB#8).length ≤ 3584 ∧ ([] : List Byte).length ≤ 3584 ∧
    resetByte 0x04F = 0#8 ∧ resetByte 0x050 = 0xF0#8 ∧ resetByte 0x09F = 0x80#8 ∧ resetByte 0x0A0 = 0#8 := by
  refine ⟨by rw [List.length_replicate], by decide, by decide, by decide, by decide, by decide⟩

/-- `TooLongLoadIsLoadError`: one byte too many. -/
theorem witness_TooLongLoadIsLoadError : (hostMove defaultFont (.load (List.replicate 3585 0xAB#8)) State.reset).1 = .loadError := by
  rw [hostMove, imageWf, List.length_replicate]
  rfl

/-- `HostMovesWriteOnlyTheirOwn`, its `ReadMem`: up to the last byte, and none at the end. -/
theorem witness_HostMovesWriteOnlyTheirOwn : 4095 + 1 ≤ 4096 ∧ 4096 + 0 ≤ 4096 ∧
    hostMove defaultFont (.readMem 4095 1) State.reset = (.bytes [0], State.reset) ∧
    (hostMove defaultFont (.keyWrite 0xF 7) State.reset).2.key[15] = 7#8 := by decide

/-- `EveryStepKeepsTheInvariant`: a state that is not reset, and its step. -/
theorem witness_EveryStepKeepsTheInvariant : spinner.Inv ∧ ∃ t, step spinner = .next t :=
  ⟨⟨by decide, by decide, by decide, by decide, by decide, by decide, by decide⟩,
    (of_nextAnd (p := fun _ => true) (by decide)).imp fun _ h => h.1⟩

/-- `EveryReachableStateMeetsTheInvariant`: a state with a program loaded, one of its cycles run. -/
theorem witness_Reachable (font : Config.Font) :
    (afterMoves font [.load [0x12, 0x00], .cycle] (State.resetWith font)).Reachable font := ⟨_, rfl⟩

/-- `OnlyInitAndLoadWriteMemory`: a cycle and the other moves. -/
theorem witness_OnlyInitAndLoadWriteMemory :
    ∀ m ∈ [HostMove.cycle, .keyWrite 0 1, .redrawClear, .timerPreset 1 2, .readMem 0 4, .readFB, .readDraw],
      (∀ seed, m ≠ .init seed) ∧ ∀ image, m ≠ .load image := by
  intro m hm
  simp only [List.mem_cons, List.not_mem_nil, or_false] at hm
  rcases hm with rfl | rfl | rfl | rfl | rfl | rfl | rfl <;> exact ⟨fun _ => nofun, fun _ => nofun⟩

end Sys2Proof.Tests
end

section
/-! PROOF. The state after `Init` and after `Load`, read element by element (10_state.md R24). -/

namespace Sys2Proof.Machine

/-! ### The reset state -/

@[simp] theorem getV_initWith (font : Config.Font) (s : State) (x : Nibble) : (s.initWith font).getV x = 0#8 := by
  simp [State.getV, State.reset]

@[simp] theorem pixel_nil (px py : Nat) : pixel [] px py = 0#8 := rfl

theorem memByte_initWith_of_outside_font (font : Config.Font) (s : State) {a : Nat} (h : a < 0x050 ∨ 0x09F < a) :
    memByte (s.initWith font).mem a = 0#8 := by
  rw [memByte_initWith, dif_neg (by omega)]

theorem memByte_initWith_font (font : Config.Font) (s : State) {k : Nat} (h : k < 80) :
    memByte (s.initWith font).mem (0x050 + k) = font[k] := by
  rw [memByte_initWith, dif_pos (by omega)]
  simp only [Nat.add_sub_cancel_left]

/-! ### The cycle on a word 0x0000 -/

/-- A cycle on two zero bytes fails with the word 0x0000, an unsupported opcode, and its address (60_exceptions.md R80). -/
theorem cycle_err_of_zero_word {s : State} (hf : s.Fetchable) (hw : s.wordAtPc = 0x0000#16) :
    (cycle s).1 = .err (.unsupportedOpcode 0x0000#16 s.pc) := by
  have hs : step s = endCycle (exec (decodeWord s.wordAtPc) s) := step_of_le s hf
  have hd : decodeWord 0x0000#16 = .unsupported0 0#12 := by decide
  rw [hw, hd] at hs
  simp only [cycle, hs]
  rfl

theorem fetchable_initWith (font : Config.Font) (s : State) : (s.initWith font).Fetchable := by
  rw [State.Fetchable, State.initWith_pc]
  decide

/-- The entry point lies above the font, so both bytes of its word are zero. -/
theorem wordAtPc_initWith (font : Config.Font) (s : State) : (s.initWith font).wordAtPc = 0x0000#16 := by
  have hpc : (s.initWith font).pc.toNat = 0x200 := rfl
  rw [State.wordAtPc, hpc, memByte_initWith_of_outside_font font s (by decide),
    memByte_initWith_of_outside_font font s (by decide)]
  rfl

/-! ### Load -/

/-- A load of at most 3584 bytes succeeds (70_reset_and_hazards.md R103). -/
theorem hostMove_load (font : Config.Font) {image : List Byte} (h : image.length ≤ 3584) (s : State) :
    hostMove font (.load image) s = (.done, s.loadImage font image) :=
  if_pos (decide_eq_true h)

/-- After a load, the image is in place from 0x200 up and every other address reads as after `Init`. -/
theorem memByte_loadImage (font : Config.Font) (image : List Byte) (s : State) (a : Nat) :
    memByte (s.loadImage font image).mem a =
      if h : 0x200 ≤ a ∧ a - 0x200 < image.length then image[a - 0x200] else memByte (s.initWith font).mem a :=
  memByte_memSetBytes _ Config.progBase a image

theorem memByte_loadImage_image (font : Config.Font) {image : List Byte} (s : State) {k : Nat} (h : k < image.length) :
    memByte (s.loadImage font image).mem (0x200 + k) = image[k] := by
  rw [memByte_loadImage, dif_pos (by omega)]
  simp only [Nat.add_sub_cancel_left]

theorem memByte_loadImage_of_outside_image (font : Config.Font) {image : List Byte} (s : State) {a : Nat}
    (h : a < 0x200 ∨ 0x200 + image.length ≤ a) :
    memByte (s.loadImage font image).mem a = memByte (s.initWith font).mem a := by
  rw [memByte_loadImage, dif_neg (by omega)]

/-- A load from the reset state changes memory alone. -/
theorem loadImage_resetWith (font : Config.Font) (image : List Byte) :
    (State.resetWith font).loadImage font image =
      { State.resetWith font with mem := ((State.resetWith font).loadImage font image).mem } := rfl

end Sys2Proof.Machine

namespace Sys2Proof.Proofs
open Sys2Proof.Machine

/-- Settles O38: each element from the law of `Init` about it, the first cycle from the zero word at 0x200, and a load
from the laws of `Load`. -/
theorem resetIsTheTableOfInit : Obligations.ResetIsTheTableOfInit := by
  refine ⟨⟨defaultFont, resetWith_defaultFont.symm⟩, fun font => ?_⟩
  refine ⟨getV_initWith font _, rfl, rfl, rfl, rfl, rfl, rfl, rfl, pixel_nil, rfl,
    fun _ => memByte_initWith_of_outside_font font _, fun _ => memByte_initWith_font font _, ?firstCycle, ?load⟩
  case firstCycle => exact cycle_err_of_zero_word (fetchable_initWith font _) (wordAtPc_initWith font _)
  case load =>
    intro image _ hlen
    have hmove := hostMove_load font hlen (State.resetWith font)
    rw [loadImage_resetWith] at hmove
    exact ⟨_, hmove, fun _ => memByte_loadImage_image font _, fun _ => memByte_loadImage_of_outside_image font _⟩

end Sys2Proof.Proofs
end

section
/-! PROOF. The encoding (30_encoding.md R44 to R49): the fields of a word, the opcode map, and the fault of the nine
unsupported families. -/

namespace Sys2Proof.Machine

/-! ### The fields as numbers (30_encoding.md R44) -/

theorem toNat_fieldOp (w : Word) : (fieldOp w).toNat = w.toNat / 4096 := by
  have h := w.isLt
  simp only [fieldOp, BitVec.extractLsb'_toNat, Nat.shiftRight_eq_div_pow]
  omega

theorem toNat_fieldX (w : Word) : (fieldX w).toNat = w.toNat / 256 % 16 := by
  simp only [fieldX, BitVec.extractLsb'_toNat, Nat.shiftRight_eq_div_pow, Nat.reducePow]

theorem toNat_fieldY (w : Word) : (fieldY w).toNat = w.toNat / 16 % 16 := by
  simp only [fieldY, BitVec.extractLsb'_toNat, Nat.shiftRight_eq_div_pow, Nat.reducePow]

theorem toNat_fieldN (w : Word) : (fieldN w).toNat = w.toNat % 16 := by
  simp only [fieldN, BitVec.extractLsb'_toNat, Nat.shiftRight_zero, Nat.reducePow]

theorem toNat_fieldNN (w : Word) : (fieldNN w).toNat = w.toNat % 256 := by
  simp only [fieldNN, BitVec.extractLsb'_toNat, Nat.shiftRight_zero, Nat.reducePow]

theorem toNat_fieldNNN (w : Word) : (fieldNNN w).toNat = w.toNat % 4096 := by
  simp only [fieldNNN, BitVec.extractLsb'_toNat, Nat.shiftRight_zero, Nat.reducePow]

/-- The family selector is the quotient by 4096, the form in which the statements name it. -/
theorem fieldOp_eq_iff {w : Word} {op : Nibble} : fieldOp w = op ↔ w.toNat / 4096 = op.toNat := by
  rw [← BitVec.toNat_inj, toNat_fieldOp]

/-! ### The overlap of the fields, and the three formats of R45: adjacent slices append to a slice -/

theorem fieldY_append_fieldN (w : Word) : fieldY w ++ fieldN w = fieldNN w :=
  BitVec.extractLsb'_append_extractLsb'_eq_extractLsb' rfl

theorem fieldX_append_fieldY (w : Word) : fieldX w ++ fieldY w = w.extractLsb' 4 8 :=
  BitVec.extractLsb'_append_extractLsb'_eq_extractLsb' rfl

theorem fieldX_append_fieldY_append_fieldN (w : Word) : fieldX w ++ fieldY w ++ fieldN w = fieldNNN w := by
  rw [fieldX_append_fieldY]
  exact BitVec.extractLsb'_append_extractLsb'_eq_extractLsb' rfl

theorem fieldOp_append_fieldX (w : Word) : fieldOp w ++ fieldX w = w.extractLsb' 8 8 :=
  BitVec.extractLsb'_append_extractLsb'_eq_extractLsb' rfl

theorem word_eq_format_NNN (w : Word) : fieldOp w ++ fieldNNN w = w :=
  (BitVec.extractLsb'_append_extractLsb'_eq_extractLsb' rfl).trans BitVec.extractLsb'_eq_self

theorem word_eq_format_XNN (w : Word) : fieldOp w ++ fieldX w ++ fieldNN w = w := by
  rw [fieldOp_append_fieldX]
  exact (BitVec.extractLsb'_append_extractLsb'_eq_extractLsb' rfl).trans BitVec.extractLsb'_eq_self

theorem word_eq_format_XYN (w : Word) : fieldOp w ++ fieldX w ++ fieldY w ++ fieldN w = w := by
  have hy : fieldOp w ++ fieldX w ++ fieldY w = w.extractLsb' 4 12 := by
    rw [fieldOp_append_fieldX]
    exact BitVec.extractLsb'_append_extractLsb'_eq_extractLsb' rfl
  rw [hy]
  exact (BitVec.extractLsb'_append_extractLsb'_eq_extractLsb' rfl).trans BitVec.extractLsb'_eq_self

/-! ### The fields in terms of the two bytes -/

theorem toNat_wordOfBytes (hi lo : Byte) : (wordOfBytes hi lo).toNat = hi.toNat * 256 + lo.toNat := by
  rw [wordOfBytes, BitVec.toNat_append, ← Nat.shiftLeft_add_eq_or_of_lt lo.isLt, Nat.shiftLeft_eq]

theorem fieldNN_wordOfBytes (hi lo : Byte) : fieldNN (wordOfBytes hi lo) = lo := BitVec.extractLsb'_append_eq_right

/-! ### The opcode map (30_encoding.md R48) -/

/-- The seven implemented values of `op`. -/
def implementedFamilies : List Nat := [0x1, 0x3, 0x6, 0x7, 0xA, 0xC, 0xD]

/-- The nine unsupported values of `op`. -/
def unsupportedFamilies : List Nat := [0x0, 0x2, 0x4, 0x5, 0x8, 0x9, 0xB, 0xE, 0xF]

theorem mem_unsupportedFamilies_iff : ∀ op < 16, op ∈ unsupportedFamilies ↔ op ∉ implementedFamilies := by decide

theorem decodeWord_of_op_1 {w : Word} (h : fieldOp w = 0x1#4) : decodeWord w = .jp (fieldNNN w) := by
  simp only [decodeWord, h]

theorem decodeWord_of_op_3 {w : Word} (h : fieldOp w = 0x3#4) : decodeWord w = .se (fieldX w) (fieldNN w) := by
  simp only [decodeWord, h]

theorem decodeWord_of_op_6 {w : Word} (h : fieldOp w = 0x6#4) : decodeWord w = .ldVx (fieldX w) (fieldNN w) := by
  simp only [decodeWord, h]

theorem decodeWord_of_op_7 {w : Word} (h : fieldOp w = 0x7#4) : decodeWord w = .add (fieldX w) (fieldNN w) := by
  simp only [decodeWord, h]

theorem decodeWord_of_op_A {w : Word} (h : fieldOp w = 0xA#4) : decodeWord w = .ldI (fieldNNN w) := by
  simp only [decodeWord, h]

theorem decodeWord_of_op_C {w : Word} (h : fieldOp w = 0xC#4) : decodeWord w = .rnd (fieldX w) (fieldNN w) := by
  simp only [decodeWord, h]

theorem decodeWord_of_op_D {w : Word} (h : fieldOp w = 0xD#4) :
    decodeWord w = .drw (fieldX w) (fieldY w) (fieldN w) := by
  simp only [decodeWord, h]

theorem nibble_cases : ∀ op : Nibble,
    op = 0x0#4 ∨ op = 0x1#4 ∨ op = 0x2#4 ∨ op = 0x3#4 ∨ op = 0x4#4 ∨ op = 0x5#4 ∨ op = 0x6#4 ∨ op = 0x7#4 ∨
    op = 0x8#4 ∨ op = 0x9#4 ∨ op = 0xA#4 ∨ op = 0xB#4 ∨ op = 0xC#4 ∨ op = 0xD#4 ∨ op = 0xE#4 ∨ op = 0xF#4 := by
  decide

/-- Encoding undoes decoding: every row takes its operands from the fields of one format, under its own `op`. -/
theorem encode_decodeWord (w : Word) : encode (decodeWord w) = w := by
  have hNNN := word_eq_format_NNN w
  have hXNN := word_eq_format_XNN w
  have hXYN := word_eq_format_XYN w
  rcases nibble_cases (fieldOp w) with h | h | h | h | h | h | h | h | h | h | h | h | h | h | h | h
  all_goals
    rw [h] at hNNN hXNN hXYN
    simp [decodeWord, h, encode, hNNN, hXNN, hXYN]

/-- Every row's `match` bits are those of its words under the mask 0xF000. -/
theorem encode_and_mask (i : Instr) : encode i &&& 0xF000#16 = i.matchBits := by
  cases i with
  | jp a => exact Laws.FamilyBits.jp a
  | se x nn => exact Laws.FamilyBits.se x nn
  | ldVx x nn => exact Laws.FamilyBits.ldVx x nn
  | add x nn => exact Laws.FamilyBits.add x nn
  | ldI a => exact Laws.FamilyBits.ldI a
  | rnd x nn => exact Laws.FamilyBits.rnd x nn
  | drw x y n => exact Laws.FamilyBits.drw x y n
  | unsupported0 u => exact Laws.FamilyBits.unsupported0 u
  | unsupported2 u => exact Laws.FamilyBits.unsupported2 u
  | unsupported4 u => exact Laws.FamilyBits.unsupported4 u
  | unsupported5 u => exact Laws.FamilyBits.unsupported5 u
  | unsupported8 u => exact Laws.FamilyBits.unsupported8 u
  | unsupported9 u => exact Laws.FamilyBits.unsupported9 u
  | unsupportedB u => exact Laws.FamilyBits.unsupportedB u
  | unsupportedE u => exact Laws.FamilyBits.unsupportedE u
  | unsupportedF u => exact Laws.FamilyBits.unsupportedF u

theorem matchBits_decodeWord (w : Word) : (decodeWord w).matchBits = w &&& 0xF000#16 := by
  rw [← encode_and_mask, encode_decodeWord]

/-- The mask 0xF000 keeps the family selector. -/
theorem fieldOp_and_mask (w : Word) : fieldOp (w &&& 0xF000#16) = fieldOp w :=
  BitVec.extractLsb'_and.trans BitVec.and_allOnes

/-- A row is implemented exactly when its `match` bits are of one of the seven families. -/
theorem isImplemented_iff_matchBits (i : Instr) :
    i.isImplemented = true ↔ (fieldOp i.matchBits).toNat ∈ implementedFamilies := by
  have h : i.isImplemented = decide ((fieldOp i.matchBits).toNat ∈ implementedFamilies) := by
    cases i <;> simp [Instr.isImplemented, Instr.matchBits, fieldOp, implementedFamilies]
  rw [h, decide_eq_true_iff]

theorem isImplemented_decodeWord_iff (w : Word) :
    (decodeWord w).isImplemented = true ↔ w.toNat / 4096 ∈ implementedFamilies := by
  rw [isImplemented_iff_matchBits, matchBits_decodeWord, fieldOp_and_mask, toNat_fieldOp]

/-! ### The unsupported families (30_encoding.md R49) -/

theorem isImplemented_decodeWord_eq_false_iff (w : Word) :
    (decodeWord w).isImplemented = false ↔ w.toNat / 4096 ∈ unsupportedFamilies := by
  have hw := w.isLt
  rw [mem_unsupportedFamilies_iff _ (by omega), ← isImplemented_decodeWord_iff, Bool.not_eq_true]

/-- An instruction of an unsupported family faults with its own word and `pc`, from every state. -/
theorem exec_of_not_implemented {i : Instr} (s : State) (h : i.isImplemented = false) :
    exec i s = .fault (.unsupportedOpcode (encode i) s.pc) := by
  cases i with
  | jp _ | se _ _ | ldVx _ _ | add _ _ | ldI _ | rnd _ _ | drw _ _ _ => cases h
  | unsupported0 _ | unsupported2 _ | unsupported4 _ | unsupported5 _ | unsupported8 _ | unsupported9 _
  | unsupportedB _ | unsupportedE _ | unsupportedF _ => rfl

/-- The cycle that executes a faulting instruction returns its error and the state it was given. -/
theorem cycle_of_exec_fault {s : State} {e : Fault} (hf : s.Fetchable)
    (he : exec (decodeWord s.wordAtPc) s = .fault e) : cycle s = (.err e, s) := by
  have hs : step s = endCycle (exec (decodeWord s.wordAtPc) s) := step_of_le s hf
  rw [he, endCycle_fault] at hs
  rw [cycle, hs]

theorem cycle_of_unsupported {s : State} (hf : s.Fetchable) (hw : s.wordAtPc.toNat / 4096 ∈ unsupportedFamilies) :
    cycle s = (.err (.unsupportedOpcode s.wordAtPc s.pc), s) := by
  have he := exec_of_not_implemented s ((isImplemented_decodeWord_eq_false_iff _).mpr hw)
  rw [encode_decodeWord] at he
  exact cycle_of_exec_fault hf he

end Sys2Proof.Machine

namespace Sys2Proof.Proofs
open Sys2Proof.Machine

/-- Settles O1: the slices as quotients and remainders, adjacent slices appended, and the word of two bytes as
`hi * 256 + lo`. -/
theorem fieldsAreTheSlicesOfTheWord : Obligations.FieldsAreTheSlicesOfTheWord := by
  refine ⟨fun w => ?numbers, fun w => ?overlap, fun hi lo => ?bytes⟩
  case numbers =>
    exact ⟨toNat_fieldOp w, toNat_fieldX w, toNat_fieldY w, toNat_fieldN w, toNat_fieldNN w, toNat_fieldNNN w⟩
  case overlap => exact ⟨(fieldX_append_fieldY_append_fieldN w).symm, (fieldY_append_fieldN w).symm⟩
  case bytes =>
    have hhi := hi.isLt
    have hlo := lo.isLt
    rw [toNat_fieldOp, toNat_fieldX, toNat_fieldY, toNat_fieldN, toNat_wordOfBytes]
    refine ⟨?_, ?_, fieldNN_wordOfBytes hi lo, ?_, ?_⟩ <;> omega

/-- Settles O2: the match value and the implemented rows from `encode_decodeWord` and the rows' own `match` bits, the
seven instructions from the equations of the decoder. -/
theorem opcodeMapIsByHighNibble : Obligations.OpcodeMapIsByHighNibble := fun w =>
  ⟨matchBits_decodeWord w, isImplemented_decodeWord_iff w,
    fun h => decodeWord_of_op_1 (fieldOp_eq_iff.mpr h), fun h => decodeWord_of_op_3 (fieldOp_eq_iff.mpr h),
    fun h => decodeWord_of_op_6 (fieldOp_eq_iff.mpr h), fun h => decodeWord_of_op_7 (fieldOp_eq_iff.mpr h),
    fun h => decodeWord_of_op_A (fieldOp_eq_iff.mpr h), fun h => decodeWord_of_op_C (fieldOp_eq_iff.mpr h),
    fun h => decodeWord_of_op_D (fieldOp_eq_iff.mpr h)⟩

/-- Settles O22: each row of the nine is one `exec_of_not_implemented`, and the cycle fetches the word it reports. -/
theorem unsupportedFamiliesRaiseUnsupportedOpcode : Obligations.UnsupportedFamiliesRaiseUnsupportedOpcode := by
  refine ⟨fun u s => ?rows, isImplemented_decodeWord_eq_false_iff, fun s hf hw => ?cycle⟩
  case rows =>
    have fault (i : Instr) (h : i.isImplemented = false) := exec_of_not_implemented s h
    exact ⟨fault (.unsupported0 u) rfl, fault (.unsupported2 u) rfl, fault (.unsupported4 u) rfl,
      fault (.unsupported5 u) rfl, fault (.unsupported8 u) rfl, fault (.unsupported9 u) rfl,
      fault (.unsupportedB u) rfl, fault (.unsupportedE u) rfl, fault (.unsupportedF u) rfl⟩
  case cycle =>
    rw [cycle_of_unsupported hf hw]
    exact ⟨rfl, rfl⟩

end Sys2Proof.Proofs
end

section
/-! PROOF. Control transfer (41_control_flow.md R61, R62): the jump, the skip, and the failing fetch after either. -/

namespace Sys2Proof.Machine

@[simp] theorem toNat_zext16 (nnn : Imm12) : (zext16 nnn).toNat = nnn.toNat :=
  BitVec.toNat_setWidth_of_le (by decide)

theorem exec_jp (nnn : Imm12) (s : State) : exec (.jp nnn) s = .next (s.setPc (zext16 nnn)) := rfl

theorem exec_se_of_eq {x : Nibble} {nn : Byte} {s : State} (h : s.getV x = nn) :
    exec (.se x nn) s = .next (s.advance 4#16) :=
  congrArg Host.Outcome.next (if_pos h)

theorem exec_se_of_ne {x : Nibble} {nn : Byte} {s : State} (h : s.getV x ≠ nn) :
    exec (.se x nn) s = .next (s.advance 2#16) :=
  congrArg Host.Outcome.next (if_neg h)

/-- From a fetchable `pc`, neither amount an instruction adds to `pc` wraps around (40_cycle.md R57; log 12). -/
theorem toNat_pc_add {s : State} (hf : s.Fetchable) {k : Word} (hk : k.toNat ≤ 4) :
    (s.pc + k).toNat = s.pc.toNat + k.toNat := by
  have hpc : s.pc.toNat ≤ 4094 := hf
  exact BitVec.toNat_add_of_lt (by omega)

/-- A skip moves a fetchable `pc` upward, whether or not it is taken. -/
theorem pc_lt_of_exec_se {x : Nibble} {nn : Byte} {s t : State} (hf : s.Fetchable) (h : exec (.se x nn) s = .next t) :
    s.pc.toNat < t.pc.toNat := by
  by_cases heq : s.getV x = nn
  · obtain rfl := Host.Outcome.next.inj ((exec_se_of_eq heq).symm.trans h)
    simp [toNat_pc_add hf]
  · obtain rfl := Host.Outcome.next.inj ((exec_se_of_ne heq).symm.trans h)
    simp [toNat_pc_add hf]

theorem step_invalidAddress_of_gt {s : State} (h : 4094 < s.pc.toNat) : ∃ a, step s = .fault (.invalidAddress a) :=
  ⟨_, step_of_gt s h⟩

end Sys2Proof.Machine

namespace Sys2Proof.Proofs
open Sys2Proof.Machine

/-- Settles O10: the frame is `exec_jp`, and the target 0xFFF is past the last address a fetch succeeds at. -/
theorem jpSetsPcToTheTarget : Obligations.JpSetsPcToTheTarget := by
  refine ⟨fun w hw => decodeWord_of_op_1 (fieldOp_eq_iff.mpr hw), fun nnn s => ?completes, fun s t ht => ?lastByte⟩
  case completes => exact ⟨_, exec_jp nnn s, toNat_zext16 nnn, rfl⟩
  case lastByte =>
    obtain rfl := Host.Outcome.next.inj ((exec_jp _ s).symm.trans ht)
    have hpc : (s.setPc (zext16 0xFFF#12)).pc.toNat = 4095 := toNat_zext16 0xFFF#12
    exact step_invalidAddress_of_gt (by omega)

/-- Settles O11: the two outcomes of the comparison, and after a skip from 4094 the `pc` is past the last address a
fetch succeeds at. -/
theorem seSkipsWhenEqual : Obligations.SeSkipsWhenEqual := by
  refine ⟨fun w hw => decodeWord_of_op_3 (fieldOp_eq_iff.mpr hw), fun x nn s => ?_⟩
  refine ⟨exec_se_of_eq, exec_se_of_ne, fun hf => ?noWrap, fun hpc t ht => ?last⟩
  case noWrap => exact ⟨toNat_pc_add hf (by decide), toNat_pc_add hf (by decide)⟩
  case last =>
    have hlt := pc_lt_of_exec_se (Nat.le_of_eq hpc) ht
    exact step_invalidAddress_of_gt (hpc ▸ hlt)

end Sys2Proof.Proofs
end

section
/-! PROOF. The register instructions (42_register_ops.md R64 to R66): the immediate load, the add without a flag and
the load of the index register. -/

namespace Sys2Proof.Machine

theorem exec_ldVx (x : Nibble) (nn : Byte) (s : State) :
    exec (.ldVx x nn) s = .next ((s.setV x nn).advance 2#16) := rfl

theorem exec_add (x : Nibble) (nn : Byte) (s : State) :
    exec (.add x nn) s = .next ((s.setV x (s.getV x + nn)).advance 2#16) := rfl

theorem exec_ldI (nnn : Imm12) (s : State) :
    exec (.ldI nnn) s = .next ((s.setI (zext16 nnn)).advance 2#16) := rfl

/-- What an instruction that writes one register and moves on does: the byte is in `V[x]`, every other register is as
before, and nothing but the registers and `pc` changes. -/
theorem setV_advance_effect (s : State) (x : Nibble) (b : Byte) (k : Word) :
    ((s.setV x b).advance k).getV x = b ∧ (∀ y, y ≠ x → ((s.setV x b).advance k).getV y = s.getV y) ∧
      (s.setV x b).advance k = { s with v := ((s.setV x b).advance k).v, pc := s.pc + k } :=
  ⟨s.getV_setV_same x b, fun y hy => s.getV_setV_ne x y b hy, rfl⟩

end Sys2Proof.Machine

namespace Sys2Proof.Proofs
open Sys2Proof.Machine

/-- Settles O12: the write of `nn` is the whole effect. -/
theorem ldVxStoresTheImmediate : Obligations.LdVxStoresTheImmediate := by
  refine ⟨fun w hw => decodeWord_of_op_6 (fieldOp_eq_iff.mpr hw), fun x nn s => ?completes⟩
  case completes => exact ⟨_, exec_ldVx x nn s, setV_advance_effect s x nn 2#16⟩

/-- Settles O13: the byte written is the 8-bit sum, whose number is the sum modulo 256, and no second register is
written. -/
theorem addWrapsAndWritesNoFlag : Obligations.AddWrapsAndWritesNoFlag := by
  refine ⟨fun w hw => decodeWord_of_op_7 (fieldOp_eq_iff.mpr hw), fun x nn s => ?completes⟩
  case completes =>
    obtain ⟨hsum, hothers, hframe⟩ := setV_advance_effect s x (s.getV x + nn) 2#16
    have hmod : (s.getV x + nn).toNat = ((s.getV x).toNat + nn.toNat) % 256 := BitVec.toNat_add _ _
    exact ⟨_, exec_add x nn s, (congrArg BitVec.toNat hsum).trans hmod, hothers, hframe⟩

/-- Settles O14: the zero-extension keeps the number `nnn`, and only `I` and `pc` are written. -/
theorem ldILoadsTheIndex : Obligations.LdILoadsTheIndex := by
  refine ⟨fun w hw => decodeWord_of_op_A (fieldOp_eq_iff.mpr hw), fun nnn s => ?completes⟩
  case completes => exact ⟨_, exec_ldI nnn s, toNat_zext16 nnn, rfl⟩

end Sys2Proof.Proofs
end

section
/-! PROOF. The round trips of the encoding (30_encoding.md R43, R45, R48): decoding undoes encoding and encoding
undoes decoding, on words and on bytes. -/

namespace Sys2Proof.Machine

/-! ### The fields of a word put together in one of the formats of R45 -/

theorem fieldOp_append (op : Nibble) (r : Imm12) : fieldOp (op ++ r) = op := BitVec.extractLsb'_append_eq_left

theorem fieldNNN_append (op : Nibble) (r : Imm12) : fieldNNN (op ++ r) = r := BitVec.extractLsb'_append_eq_right

theorem fieldOp_append_xnn (op x : Nibble) (nn : Byte) : fieldOp (op ++ x ++ nn) = op := by
  rw [Laws.append_xnn, fieldOp_append]

theorem fieldNN_append_xnn (op x : Nibble) (nn : Byte) : fieldNN (op ++ x ++ nn) = nn :=
  BitVec.extractLsb'_append_eq_right

theorem toNat_append_nibble {k : Nat} (r : BitVec k) (a : Nibble) : (r ++ a).toNat = r.toNat * 16 + a.toNat := by
  rw [BitVec.toNat_append, ← Nat.shiftLeft_add_eq_or_of_lt a.isLt, Nat.shiftLeft_eq]

theorem toNat_append_byte {k : Nat} (r : BitVec k) (b : Byte) : (r ++ b).toNat = r.toNat * 256 + b.toNat := by
  rw [BitVec.toNat_append, ← Nat.shiftLeft_add_eq_or_of_lt b.isLt, Nat.shiftLeft_eq]

theorem fieldX_append_xnn (op x : Nibble) (nn : Byte) : fieldX (op ++ x ++ nn) = x := by
  have hx := x.isLt
  have hnn := nn.isLt
  apply BitVec.eq_of_toNat_eq
  rw [toNat_fieldX, toNat_append_byte, toNat_append_nibble]
  omega

theorem fieldOp_append_xyn (op x y n : Nibble) : fieldOp (op ++ x ++ y ++ n) = op := by
  rw [Laws.append_xyn, fieldOp_append]

theorem fieldX_append_xyn (op x y n : Nibble) : fieldX (op ++ x ++ y ++ n) = x := by
  have hx := x.isLt
  have hy := y.isLt
  have hn := n.isLt
  apply BitVec.eq_of_toNat_eq
  rw [toNat_fieldX, toNat_append_nibble, toNat_append_nibble, toNat_append_nibble]
  omega

theorem fieldY_append_xyn (op x y n : Nibble) : fieldY (op ++ x ++ y ++ n) = y := by
  have hy := y.isLt
  have hn := n.isLt
  apply BitVec.eq_of_toNat_eq
  rw [toNat_fieldY, toNat_append_nibble, toNat_append_nibble]
  omega

theorem fieldN_append_xyn (op x y n : Nibble) : fieldN (op ++ x ++ y ++ n) = n := BitVec.extractLsb'_append_eq_right

/-! ### Words and their bytes -/

/-- Decoding undoes encoding: a row's own `op` selects it, and its operands are the fields of its format. -/
theorem decodeWord_encode (i : Instr) : decodeWord (encode i) = i := by
  cases i with
  | jp _ | ldI _ | unsupported0 _ | unsupported2 _ | unsupported4 _ | unsupported5 _ | unsupported8 _
  | unsupported9 _ | unsupportedB _ | unsupportedE _ =>
    simp only [decodeWord, encode, fieldOp_append, fieldNNN_append]
  | unsupportedF _ =>
    simp only [decodeWord, encode, fieldOp_append, fieldNNN_append]
    rfl
  | se _ _ | ldVx _ _ | add _ _ | rnd _ _ =>
    simp only [decodeWord, encode, fieldOp_append_xnn, fieldX_append_xnn, fieldNN_append_xnn]
  | drw _ _ _ =>
    simp only [decodeWord, encode, fieldOp_append_xyn, fieldX_append_xyn, fieldY_append_xyn, fieldN_append_xyn]

/-- The bytes of a word, put together big-endian, are the word (20_memory.md R32). -/
theorem append_bytes_eq_word (w : Word) : (w.extractLsb' 8 8 ++ w.extractLsb' 0 8 : Word) = w :=
  (BitVec.extractLsb'_append_extractLsb'_eq_extractLsb' rfl).trans BitVec.extractLsb'_eq_self

theorem decode_bytesOfWord (w : Word) (rest : List Byte) : decode (bytesOfWord w ++ rest) = .ok (decodeWord w, rest) :=
  congrArg (fun v => Except.ok (decodeWord v, rest)) (append_bytes_eq_word w)

theorem bytesOfWord_wordOfBytes (hi lo : Byte) : bytesOfWord (wordOfBytes hi lo) = [hi, lo] :=
  congrArg₂ (fun a b => [a, b]) BitVec.extractLsb'_append_eq_left BitVec.extractLsb'_append_eq_right

end Sys2Proof.Machine

namespace Sys2Proof.Proofs
open Sys2Proof.Machine

/-- Settles O3: the two bytes give the word back, and `decodeWord_encode` the instruction. -/
theorem decodeOfEncodeIsTheInstruction : Obligations.DecodeOfEncodeIsTheInstruction := fun i rest => by
  rw [encodeBytes, decode_bytesOfWord, decodeWord_encode]

/-- Settles O4: `encode_decodeWord` gives the word of the two bytes, and its bytes are those two. -/
theorem encodeOfDecodeIsTheBytes : Obligations.EncodeOfDecodeIsTheBytes := by
  refine ⟨fun hi lo rest => ⟨decodeWord (wordOfBytes hi lo), rfl, ?bytes⟩, fun _ => rfl, rfl⟩
  case bytes => rw [encodeBytes, encode_decodeWord, bytesOfWord_wordOfBytes]

/-- Settles O5: the decoder evaluated on the eight words. -/
theorem sampleWordsDecode : Obligations.SampleWordsDecode := by
  unfold Obligations.SampleWordsDecode
  decide

end Sys2Proof.Proofs
end

section
/-! PROOF. What a step does, by the family of the word at `pc` (30_encoding.md R48, 40_cycle.md R54 to R60): the effect
of each word, when a step completes and when it fails, and what a cycle returns. -/

namespace Sys2Proof.Machine

/-! ### The two instructions with no equation so far, and no refusal -/

theorem exec_rnd (x : Nibble) (nn : Byte) (s : State) :
    exec (.rnd x nn) s = .next (randomize s.nextDraw x nn s).consumeDraw := rfl

theorem spriteInBounds_iff {s : State} {n : Nibble} : spriteInBounds s n = true ↔ s.i.toNat + n.toNat ≤ 4096 :=
  decide_eq_true_iff

theorem exec_drw_of_inBounds {x y n : Nibble} {s : State} (h : s.i.toNat + n.toNat ≤ 4096) :
    exec (.drw x y n) s = .next (drawnState x y n s) :=
  if_pos (spriteInBounds_iff.mpr h)

theorem exec_drw_of_outOfBounds {x y n : Nibble} {s : State} (h : 4096 < s.i.toNat + n.toNat) :
    exec (.drw x y n) s = .fault (.invalidAddress 4096) :=
  if_neg fun hin => absurd (spriteInBounds_iff.mp hin) (Nat.not_le.mpr h)

theorem exec_ne_refused (i : Instr) (s : State) (r : Refusal) : exec i s ≠ .refused r := by
  cases i with
  | drw x y n =>
    rcases Nat.lt_or_ge 4096 (s.i.toNat + n.toNat) with h | h
    · rw [exec_drw_of_outOfBounds h]; nofun
    · rw [exec_drw_of_inBounds h]; nofun
  | jp _ | se _ _ | ldVx _ _ | add _ _ | ldI _ | rnd _ _ | unsupported0 _ | unsupported2 _ | unsupported4 _
  | unsupported5 _ | unsupported8 _ | unsupported9 _ | unsupportedB _ | unsupportedE _ | unsupportedF _ => nofun

/-! ### The effect of a word -/

/-- The effect of the word `w` at `s`, by its family: one constructor per implemented row of R48, and two for the two
outcomes of the skip. `exec_decodeWord_eq_next_iff` ties it to the meanings. -/
inductive WordEffect (w : Word) (s : State) : State → Prop where
  | jp (hop : w.toNat / 4096 = 0x1) : WordEffect w s (s.setPc (zext16 (fieldNNN w)))
  | skip (hop : w.toNat / 4096 = 0x3) (heq : s.getV (fieldX w) = fieldNN w) : WordEffect w s (s.advance 4#16)
  | noSkip (hop : w.toNat / 4096 = 0x3) (hne : s.getV (fieldX w) ≠ fieldNN w) : WordEffect w s (s.advance 2#16)
  | ldVx (hop : w.toNat / 4096 = 0x6) : WordEffect w s ((s.setV (fieldX w) (fieldNN w)).advance 2#16)
  | add (hop : w.toNat / 4096 = 0x7) :
    WordEffect w s ((s.setV (fieldX w) (s.getV (fieldX w) + fieldNN w)).advance 2#16)
  | ldI (hop : w.toNat / 4096 = 0xA) : WordEffect w s ((s.setI (zext16 (fieldNNN w))).advance 2#16)
  | rnd (hop : w.toNat / 4096 = 0xC) :
    WordEffect w s (randomize s.nextDraw (fieldX w) (fieldNN w) s).consumeDraw
  | drw (hop : w.toNat / 4096 = 0xD) (hin : s.i.toNat + w.toNat % 16 ≤ 4096) :
    WordEffect w s (drawnState (fieldX w) (fieldY w) (fieldN w) s)

theorem exec_of_wordEffect {w : Word} {s u : State} (h : WordEffect w s u) : exec (decodeWord w) s = .next u := by
  cases h with
  | jp hop => rw [decodeWord_of_op_1 (fieldOp_eq_iff.mpr hop), exec_jp]
  | skip hop heq => rw [decodeWord_of_op_3 (fieldOp_eq_iff.mpr hop), exec_se_of_eq heq]
  | noSkip hop hne => rw [decodeWord_of_op_3 (fieldOp_eq_iff.mpr hop), exec_se_of_ne hne]
  | ldVx hop => rw [decodeWord_of_op_6 (fieldOp_eq_iff.mpr hop), exec_ldVx]
  | add hop => rw [decodeWord_of_op_7 (fieldOp_eq_iff.mpr hop), exec_add]
  | ldI hop => rw [decodeWord_of_op_A (fieldOp_eq_iff.mpr hop), exec_ldI]
  | rnd hop => rw [decodeWord_of_op_C (fieldOp_eq_iff.mpr hop), exec_rnd]
  | drw hop hin =>
    rw [← toNat_fieldN] at hin
    rw [decodeWord_of_op_D (fieldOp_eq_iff.mpr hop), exec_drw_of_inBounds hin]

/-- A word of an implemented family has an effect, if it is no draw out of bounds. -/
theorem exists_wordEffect {w : Word} (s : State) (hop : w.toNat / 4096 ∈ implementedFamilies)
    (hin : w.toNat / 4096 = 0xD → s.i.toNat + w.toNat % 16 ≤ 4096) : ∃ u, WordEffect w s u := by
  simp only [implementedFamilies, List.mem_cons, List.not_mem_nil, or_false] at hop
  rcases hop with hop | hop | hop | hop | hop | hop | hop
  · exact ⟨_, .jp hop⟩
  · by_cases heq : s.getV (fieldX w) = fieldNN w
    · exact ⟨_, .skip hop heq⟩
    · exact ⟨_, .noSkip hop heq⟩
  · exact ⟨_, .ldVx hop⟩
  · exact ⟨_, .add hop⟩
  · exact ⟨_, .ldI hop⟩
  · exact ⟨_, .rnd hop⟩
  · exact ⟨_, .drw hop (hin hop)⟩

/-- Exactly those have one. -/
theorem exists_wordEffect_iff {w : Word} {s : State} : (∃ u, WordEffect w s u) ↔
    w.toNat / 4096 ∈ implementedFamilies ∧ (w.toNat / 4096 = 0xD → s.i.toNat + w.toNat % 16 ≤ 4096) := by
  refine ⟨fun ⟨u, hu⟩ => ?_, fun ⟨hop, hin⟩ => exists_wordEffect s hop hin⟩
  cases hu with
  | drw hop hin => exact ⟨by simp [hop, implementedFamilies], fun _ => hin⟩
  | jp hop | skip hop _ | noSkip hop _ | ldVx hop | add hop | ldI hop | rnd hop =>
    exact ⟨by simp [hop, implementedFamilies], by omega⟩

theorem exec_decodeWord_eq_fault_of_outOfBounds {w : Word} {s : State} (hop : w.toNat / 4096 = 0xD)
    (hout : 4096 < s.i.toNat + w.toNat % 16) : exec (decodeWord w) s = .fault (.invalidAddress 4096) := by
  rw [← toNat_fieldN] at hout
  rw [decodeWord_of_op_D (fieldOp_eq_iff.mpr hop), exec_drw_of_outOfBounds hout]

theorem exec_decodeWord_of_unsupported {w : Word} (s : State) (hop : w.toNat / 4096 ∈ unsupportedFamilies) :
    exec (decodeWord w) s = .fault (.unsupportedOpcode w s.pc) := by
  rw [exec_of_not_implemented s ((isImplemented_decodeWord_eq_false_iff w).mpr hop), encode_decodeWord]

/-- Every word at every state: it has an effect, it is a draw out of bounds, or its family is unsupported. -/
theorem wordEffect_or_fault (w : Word) (s : State) :
    (∃ u, WordEffect w s u) ∨ (w.toNat / 4096 = 0xD ∧ 4096 < s.i.toNat + w.toNat % 16) ∨
      w.toNat / 4096 ∈ unsupportedFamilies := by
  have hw := w.isLt
  by_cases hop : w.toNat / 4096 ∈ implementedFamilies
  · by_cases hin : w.toNat / 4096 = 0xD → s.i.toNat + w.toNat % 16 ≤ 4096
    · exact .inl (exists_wordEffect s hop hin)
    · exact .inr (.inl (by omega))
  · exact .inr (.inr ((mem_unsupportedFamilies_iff _ (by omega)).mpr hop))

theorem exec_decodeWord_eq_next_iff {w : Word} {s u : State} :
    exec (decodeWord w) s = .next u ↔ WordEffect w s u := by
  refine ⟨fun h => ?_, exec_of_wordEffect⟩
  rcases wordEffect_or_fault w s with ⟨u', hu'⟩ | ⟨hop, hout⟩ | hop
  · obtain rfl := Host.Outcome.next.inj ((exec_of_wordEffect hu').symm.trans h)
    exact hu'
  · rw [exec_decodeWord_eq_fault_of_outOfBounds hop hout] at h; cases h
  · rw [exec_decodeWord_of_unsupported s hop] at h; cases h

theorem exec_decodeWord_eq_fault_iff {w : Word} {s : State} {e : Fault} :
    exec (decodeWord w) s = .fault e ↔
      (w.toNat / 4096 ∈ unsupportedFamilies ∧ e = .unsupportedOpcode w s.pc) ∨
      (w.toNat / 4096 = 0xD ∧ 4096 < s.i.toNat + w.toNat % 16 ∧ e = .invalidAddress 4096) := by
  constructor
  · intro h
    rcases wordEffect_or_fault w s with ⟨u, hu⟩ | ⟨hop, hout⟩ | hop
    · rw [exec_of_wordEffect hu] at h; cases h
    · rw [exec_decodeWord_eq_fault_of_outOfBounds hop hout] at h
      exact .inr ⟨hop, hout, (Host.Outcome.fault.inj h).symm⟩
    · rw [exec_decodeWord_of_unsupported s hop] at h
      exact .inl ⟨hop, (Host.Outcome.fault.inj h).symm⟩
  · rintro (⟨hop, rfl⟩ | ⟨hop, hout, rfl⟩)
    · exact exec_decodeWord_of_unsupported s hop
    · exact exec_decodeWord_eq_fault_of_outOfBounds hop hout

/-- Every instruction is the one its own word decodes to, so its next states are the effects of that word. -/
theorem exec_eq_next_iff {i : Instr} {s u : State} : exec i s = .next u ↔ WordEffect (encode i) s u := by
  rw [← exec_decodeWord_eq_next_iff, decodeWord_encode]

/-! ### What an effect writes and what it leaves -/

namespace WordEffect

variable {w : Word} {s u : State}

/-- No instruction writes memory, the stack, its pointer, a key or a timer. -/
theorem frame (h : WordEffect w s u) : u.mem = s.mem ∧ u.stack = s.stack ∧ u.sp = s.sp ∧ u.key = s.key ∧
    u.dt = s.dt ∧ u.st = s.st := by
  cases h <;> exact ⟨rfl, rfl, rfl, rfl, rfl, rfl⟩

/-- `I` is written by family A alone. -/
theorem i_eq (h : WordEffect w s u) (hop : w.toNat / 4096 ≠ 0xA) : u.i = s.i := by
  cases h with
  | ldI hA => exact absurd hA hop
  | jp _ | skip _ _ | noSkip _ _ | ldVx _ | add _ | rnd _ | drw _ _ => rfl

/-- The framebuffer and `DRAW` are written by family D alone. -/
theorem fb_eq (h : WordEffect w s u) (hop : w.toNat / 4096 ≠ 0xD) : u.fb = s.fb ∧ u.redraw = s.redraw := by
  cases h with
  | drw hD _ => exact absurd hD hop
  | jp _ | skip _ _ | noSkip _ _ | ldVx _ | add _ | ldI _ | rnd _ => exact ⟨rfl, rfl⟩

/-- The draw counter is moved by family C alone. -/
theorem draws_eq (h : WordEffect w s u) (hop : w.toNat / 4096 ≠ 0xC) : u.draws = s.draws := by
  cases h with
  | rnd hC => exact absurd hC hop
  | jp _ | skip _ _ | noSkip _ _ | ldVx _ | add _ | ldI _ | drw _ _ => rfl

theorem toNat_pc_of_jp (h : WordEffect w s u) (hop : w.toNat / 4096 = 0x1) : u.pc.toNat = w.toNat % 4096 := by
  cases h with
  | jp _ => rw [State.setPc_pc, toNat_zext16, toNat_fieldNNN]
  | skip h' _ | noSkip h' _ | ldVx h' | add h' | ldI h' | rnd h' | drw h' _ => omega

theorem toNat_pc_of_skip (h : WordEffect w s u) (hf : s.Fetchable) (hop : w.toNat / 4096 = 0x3)
    (heq : s.getV (fieldX w) = fieldNN w) : u.pc.toNat = s.pc.toNat + 4 := by
  cases h with
  | skip _ _ => exact toNat_pc_add hf (by decide)
  | noSkip _ hne => exact absurd heq hne
  | jp h' | ldVx h' | add h' | ldI h' | rnd h' | drw h' _ => omega

/-- But for a jump and a taken skip, `pc` goes on by 2. -/
theorem toNat_pc_of_ne (h : WordEffect w s u) (hf : s.Fetchable) (hop : w.toNat / 4096 ≠ 0x1)
    (hne : w.toNat / 4096 = 0x3 → s.getV (fieldX w) ≠ fieldNN w) : u.pc.toNat = s.pc.toNat + 2 := by
  cases h with
  | jp h' => exact absurd h' hop
  | skip h' heq => exact absurd heq (hne h')
  | noSkip _ _ | ldVx _ | add _ | ldI _ | rnd _ | drw _ _ => exact toNat_pc_add (k := 2#16) hf (by decide)

end WordEffect

/-! ### The step -/

theorem fetch_of_fetchable {s : State} (hf : s.Fetchable) : fetch s = .ok s.wordAtPc :=
  (fetch_eq s).trans (if_pos hf)

theorem step_of_fetchable {s : State} (hf : s.Fetchable) : step s = endCycle (exec (decodeWord s.wordAtPc) s) :=
  step_of_le s hf

theorem step_of_wordEffect {s u : State} (hf : s.Fetchable) (h : WordEffect s.wordAtPc s u) :
    step s = .next (tick u) := by
  rw [step_of_fetchable hf, exec_of_wordEffect h, endCycle_next]

/-- A step completes exactly when the fetch is in range and the word there has an effect, which is then ticked. -/
theorem step_eq_next_iff {s t : State} :
    step s = .next t ↔ s.Fetchable ∧ ∃ u, WordEffect s.wordAtPc s u ∧ t = tick u := by
  constructor
  · intro h
    have hf : s.Fetchable := by
      by_contra hgt
      rw [step_of_gt s (Nat.not_le.mp hgt)] at h
      cases h
    obtain ⟨w, u, hw, hu, rfl⟩ := step_next_cases h
    obtain rfl := Except.ok.inj ((fetch_of_fetchable hf).symm.trans hw)
    exact ⟨hf, u, exec_decodeWord_eq_next_iff.mp hu, rfl⟩
  · rintro ⟨hf, u, hu, rfl⟩
    exact step_of_wordEffect hf hu

theorem step_ne_refused (s : State) (r : Refusal) : step s ≠ .refused r := by
  intro h
  by_cases hf : s.Fetchable
  · rw [step_of_fetchable hf] at h
    cases he : exec (decodeWord s.wordAtPc) s with
    | next u => rw [he] at h; cases h
    | fault e => rw [he] at h; cases h
    | refused r' => exact exec_ne_refused _ _ _ he
  · rw [step_of_gt s (Nat.not_le.mp hf)] at h
    cases h

/-- The three ways a step fails, each with its payload (60_exceptions.md R80 to R82). -/
theorem step_eq_fault_iff {s : State} {e : Fault} : step s = .fault e ↔
    (4094 < s.pc.toNat ∧ e = .invalidAddress (max s.pc.toNat 4096)) ∨
    (s.pc.toNat ≤ 4094 ∧ s.wordAtPc.toNat / 4096 ∈ unsupportedFamilies ∧ e = .unsupportedOpcode s.wordAtPc s.pc) ∨
    (s.pc.toNat ≤ 4094 ∧ s.wordAtPc.toNat / 4096 = 0xD ∧ 4096 < s.i.toNat + s.wordAtPc.toNat % 16 ∧
      e = .invalidAddress 4096) := by
  rcases Nat.lt_or_ge 4094 s.pc.toNat with hgt | hf
  · have hmax : (if 4096 ≤ s.pc.toNat then s.pc.toNat else 4096) = max s.pc.toNat 4096 := by
      split <;> omega
    rw [step_of_gt s hgt, hmax]
    simp [hgt, Nat.not_le.mpr hgt, eq_comm]
  · have hend : endCycle (exec (decodeWord s.wordAtPc) s) = .fault e ↔ exec (decodeWord s.wordAtPc) s = .fault e := by
      cases exec (decodeWord s.wordAtPc) s <;> simp
    rw [step_of_fetchable hf, hend, exec_decodeWord_eq_fault_iff]
    simp [hf, Nat.not_lt.mpr hf]

/-! ### The cycle -/

theorem cycle_of_step_next {s t : State} (h : step s = .next t) :
    cycle s = (.ok (beepActive s) (beepStop s), t) := by
  rw [cycle, h]

theorem cycle_of_step_fault {s : State} {e : Fault} (h : step s = .fault e) : cycle s = (.err e, s) := by
  rw [cycle, h]

/-- A cycle fails exactly when its step faults, and it returns the state it was given (40_cycle.md R59). -/
theorem cycle_eq_err_iff {s t : State} {e : Fault} : cycle s = (.err e, t) ↔ step s = .fault e ∧ t = s := by
  cases h : step s with
  | next u => simp [cycle_of_step_next h]
  | fault e' => simp [cycle_of_step_fault h, eq_comm]
  | refused r => exact absurd h (step_ne_refused s r)

/-- The state after a cycle is the next state of the step, or the one before. -/
theorem cycle_snd_cases (s : State) : step s = .next (cycle s).2 ∨ (cycle s).2 = s := by
  cases h : step s with
  | next t => exact .inl (by rw [cycle_of_step_next h])
  | fault e => exact .inr (by rw [cycle_of_step_fault h])
  | refused r => exact absurd h (step_ne_refused s r)

end Sys2Proof.Machine
end

section
/-! PROOF. The invariant of reachable states (10_state.md R13, R15, R16, R19, R21): it holds after `Init`, every effect
and the tick keep it, and so does every host move; and what a list of host moves keeps. -/

namespace Sys2Proof.Machine

/-! ### The invariant and the step -/

theorem State.Inv.tick {s : State} (h : s.Inv) : (tick s).Inv where
  mem := h.mem
  fb := h.fb
  lit := h.lit
  index := h.index
  pcRange := h.pcRange
  stack := h.stack
  sp := h.sp

theorem WordEffect.fbWf {w : Word} {s u : State} (h : WordEffect w s u) (hfb : fbWf s.fb = true) :
    fbWf u.fb = true := by
  cases h with
  | drw _ _ => exact fbWf_drawSprite _ _ _ _ hfb
  | jp _ | skip _ _ | noSkip _ _ | ldVx _ | add _ | ldI _ | rnd _ => exact hfb

theorem WordEffect.fbLitIsOne {w : Word} {s u : State} (h : WordEffect w s u) (hlit : fbLitIsOne s.fb = true) :
    fbLitIsOne u.fb = true := by
  cases h with
  | drw _ _ => exact fbLitIsOne_drawSprite _ _ _ _ hlit
  | jp _ | skip _ _ | noSkip _ _ | ldVx _ | add _ | ldI _ | rnd _ => exact hlit

/-- The index register holds a 12-bit number if it did or has just been loaded. -/
theorem WordEffect.index_le {w : Word} {s u : State} (h : WordEffect w s u) (hi : s.i.toNat ≤ 0x0FFF) :
    u.i.toNat ≤ 0x0FFF := by
  cases h with
  | ldI _ =>
    rw [State.advance_i, State.setI_i, toNat_zext16]
    exact Nat.le_of_lt_succ (fieldNNN w).isLt
  | jp _ | skip _ _ | noSkip _ _ | ldVx _ | add _ | rnd _ | drw _ _ => exact hi

/-- From a fetchable `pc`, the next one is a 12-bit target or at most 4 further. -/
theorem WordEffect.pc_le {w : Word} {s u : State} (h : WordEffect w s u) (hf : s.Fetchable) : u.pc.toNat ≤ 4098 := by
  have hpc : s.pc.toNat ≤ 4094 := hf
  by_cases hjp : w.toNat / 4096 = 0x1
  · have := h.toNat_pc_of_jp hjp; omega
  · by_cases hskip : w.toNat / 4096 = 0x3 ∧ s.getV (fieldX w) = fieldNN w
    · have := h.toNat_pc_of_skip hf hskip.1 hskip.2; omega
    · have := h.toNat_pc_of_ne hf hjp (not_and.mp hskip); omega

theorem WordEffect.inv {w : Word} {s u : State} (h : WordEffect w s u) (hf : s.Fetchable) (hs : s.Inv) : u.Inv := by
  obtain ⟨hmem, hstack, hsp, -⟩ := h.frame
  exact { mem := hmem ▸ hs.mem, fb := h.fbWf hs.fb, lit := h.fbLitIsOne hs.lit, index := h.index_le hs.index
          pcRange := h.pc_le hf, stack := hstack.trans hs.stack, sp := hsp.trans hs.sp }

theorem step_keeps_inv {s t : State} (hs : s.Inv) (h : step s = .next t) : t.Inv := by
  obtain ⟨hf, u, hu, rfl⟩ := step_eq_next_iff.mp h
  exact (hu.inv hf hs).tick

/-! ### The invariant and the host -/

theorem initWith_inv (font : Config.Font) (s : State) : (s.initWith font).Inv where
  mem := initWith_memWf font s
  fb := rfl
  lit := rfl
  index := by simp [State.reset]
  pcRange := by simp [State.reset]
  stack := rfl
  sp := rfl

theorem loadImage_inv (font : Config.Font) {image : List Byte} (h : imageWf image = true) (s : State) :
    (s.loadImage font image).Inv :=
  { initWith_inv font s with mem := loadImage_memWf font h s }

theorem cycle_keeps_inv {s : State} (hs : s.Inv) : (cycle s).2.Inv := by
  rcases cycle_snd_cases s with h | h
  · exact step_keeps_inv hs h
  · rwa [h]

theorem hostMove_keeps_inv (font : Config.Font) (m : HostMove) {s : State} (hs : s.Inv) :
    (hostMove font m s).2.Inv := by
  cases m with
  | init _ => exact initWith_inv font s
  | load image =>
    rw [hostMove]
    split
    · exact loadImage_inv font ‹_› s
    · exact hs
  | cycle => exact cycle_keeps_inv hs
  | keyWrite _ _ | redrawClear | timerPreset _ _ => exact { hs with }
  | readMem _ _ | readFB | readDraw => exact hs

/-- What each move of a list keeps, the list keeps. -/
theorem afterMoves_keeps (font : Config.Font) (P : State → Prop) {ms : List HostMove}
    (h : ∀ m ∈ ms, ∀ s, P s → P (hostMove font m s).2) {s : State} (hs : P s) : P (afterMoves font ms s) := by
  induction ms generalizing s with
  | nil => exact hs
  | cons m ms ih => exact ih (fun m' hm' => h m' (List.mem_cons_of_mem m hm')) (h m List.mem_cons_self s hs)

/-! ### Memory between two loads -/

theorem step_mem {s t : State} (h : step s = .next t) : t.mem = s.mem := by
  obtain ⟨-, u, hu, rfl⟩ := step_eq_next_iff.mp h
  exact hu.frame.1

/-- No host move but `Init` and `Load` writes memory (20_memory.md R31, R40). -/
theorem hostMove_mem (font : Config.Font) {m : HostMove} (s : State) (hinit : ∀ seed, m ≠ .init seed)
    (hload : ∀ image, m ≠ .load image) : (hostMove font m s).2.mem = s.mem := by
  cases m with
  | init seed => exact absurd rfl (hinit seed)
  | load image => exact absurd rfl (hload image)
  | cycle =>
    rcases cycle_snd_cases s with h | h
    · exact step_mem h
    · exact congrArg State.mem h
  | keyWrite _ _ | redrawClear | timerPreset _ _ | readMem _ _ | readFB | readDraw => rfl

end Sys2Proof.Machine

namespace Sys2Proof.Proofs
open Sys2Proof.Machine

/-- Settles O43: the reset state is the state after `Init` with the default font. -/
theorem invariantHoldsAtReset : Obligations.InvariantHoldsAtReset := by
  unfold Obligations.InvariantHoldsAtReset
  rw [← resetWith_defaultFont]
  exact initWith_inv defaultFont _

/-- Settles O44: the effect of the fetched word keeps each clause, and the tick touches none. -/
theorem everyStepKeepsTheInvariant : Obligations.EveryStepKeepsTheInvariant := fun _ _ => step_keeps_inv

/-- Settles O45: each host move keeps the invariant, so a list of them from the reset state does. -/
theorem everyReachableStateMeetsTheInvariant : Obligations.EveryReachableStateMeetsTheInvariant := by
  refine ⟨fun font m s => hostMove_keeps_inv font m, ?reachable⟩
  case reachable =>
    rintro font _ ⟨ms, rfl⟩
    exact afterMoves_keeps font State.Inv (fun m _ _ => hostMove_keeps_inv font m) (initWith_inv font _)

/-- Settles O46: no move of the list writes memory, so the list does not. -/
theorem onlyInitAndLoadWriteMemory : Obligations.OnlyInitAndLoadWriteMemory := by
  intro font ms s hms
  have hmem : (afterMoves font ms s).mem = s.mem := by
    refine afterMoves_keeps font (fun t => t.mem = s.mem) (fun m hm t ht => ?_) rfl
    obtain ⟨hinit, hload⟩ := hms m hm
    exact (hostMove_mem font t hinit hload).trans ht
  exact ⟨hmem, fun a => congrArg (memByte · a) hmem⟩

end Sys2Proof.Proofs
end

section
/-! PROOF. Main memory and the fetch (20_memory.md R30, R32; 40_cycle.md R55): the checked reads, the canonical form as
data, and the word a fetch finds. -/

namespace Sys2Proof.Machine

/-! ### The checked reads -/

theorem toNat_memWord (m : List Host.Cell) (a : Nat) :
    (memByte m a ++ memByte m (a + 1) : Word).toNat = (memByte m a).toNat * 256 + (memByte m (a + 1)).toNat :=
  toNat_append_byte _ _

theorem memRead2_of_inRange (m : List Host.Cell) {a : Nat} (h : a + 1 < 4096) :
    memRead2 m a = .ok (memByte m a ++ memByte m (a + 1)) := by
  have hfirst : ¬ a ≥ Config.memSize := by simp only [Config.memSize]; omega
  have hsecond : ¬ a + 1 ≥ Config.memSize := Nat.not_le.mpr h
  rw [memRead2, if_neg hfirst, if_neg hsecond]

theorem memRead2_of_first_out (m : List Host.Cell) {a : Nat} (h : 4096 ≤ a) :
    memRead2 m a = .error (.invalidAddress a) := if_pos h

theorem memRead2_of_second_out (m : List Host.Cell) {a : Nat} (h : a < 4096) (h' : 4096 ≤ a + 1) :
    memRead2 m a = .error (.invalidAddress (a + 1)) :=
  (if_neg (Nat.not_le.mpr h)).trans (if_pos h')

/-! ### The canonical form: a list of cells in it is fixed by its reads -/

section CanonicalForm

variable {bg : Nat → Byte} {size : Nat} {cs ds : List Host.Cell}

/-- In rising order, a listed cell is the one its address reads as. -/
theorem cellsGet_of_mem (h : cs.Pairwise fun c d => c.1 < d.1) {c : Host.Cell} (hc : c ∈ cs) :
    cellsGet bg cs c.1 = c.2 := by
  induction cs with
  | nil => cases hc
  | cons d ds ih =>
    obtain ⟨hd, hds⟩ := List.pairwise_cons.mp h
    rcases List.mem_cons.mp hc with rfl | hc
    · simp [cellsGet]
    · have hne : d.1 ≠ c.1 := Nat.ne_of_lt (hd c hc)
      simp [cellsGet, hne, ih hds hc]

/-- What does not read as the background is listed. -/
theorem mem_of_cellsGet_ne {a : Nat} (h : cellsGet bg cs a ≠ bg a) : (a, cellsGet bg cs a) ∈ cs := by
  induction cs with
  | nil => exact absurd rfl h
  | cons d ds ih =>
    by_cases hd : d.1 = a
    · subst hd; simp [cellsGet]
    · simp only [cellsGet, hd, if_false] at h ⊢
      exact List.mem_cons_of_mem d (ih h)

/-- The cells of a canonical list are exactly the reads below the size that differ from the background. -/
theorem mem_iff_of_cellsWf (h : cellsWf bg size cs = true) {c : Host.Cell} :
    c ∈ cs ↔ c.1 < size ∧ c.2 ≠ bg c.1 ∧ cellsGet bg cs c.1 = c.2 := by
  obtain ⟨hrising, hcells⟩ := cellsWf_iff.mp h
  constructor
  · intro hc
    obtain ⟨hlt, hne⟩ := hcells c hc
    exact ⟨hlt, hne, cellsGet_of_mem hrising hc⟩
  · rintro ⟨-, hne, hget⟩
    rw [← hget] at hne
    exact (Prod.ext rfl hget : (c.1, cellsGet bg cs c.1) = c) ▸ mem_of_cellsGet_ne hne

theorem eq_of_cellsGet_eq (h : cellsWf bg size cs = true) (h' : cellsWf bg size ds = true)
    (hget : ∀ a < size, cellsGet bg cs a = cellsGet bg ds a) : cs = ds := by
  have hmem (c : Host.Cell) : c ∈ cs ↔ c ∈ ds := by
    rw [mem_iff_of_cellsWf h, mem_iff_of_cellsWf h']
    exact and_congr_right fun hlt => by rw [hget _ hlt]
  have hirrefl : Std.Irrefl fun c d : Host.Cell => c.1 < d.1 := ⟨fun c => Nat.lt_irrefl c.1⟩
  have hasymm : Std.Asymm fun c d : Host.Cell => c.1 < d.1 := ⟨fun _ _ => Nat.lt_asymm⟩
  exact (cellsWf_iff.mp h).1.eq_of_mem_iff (cellsWf_iff.mp h').1 hmem

end CanonicalForm

/-! ### The stored fetch word -/

theorem tableWord_toNat (w : Word) : tableWord 16 w.toNat = w :=
  by
  rw [tableWord, Nat.mod_eq_of_lt w.isLt, BitVec.ofNat_toNat, BitVec.setWidth_eq]

/-- At a fetchable `pc`, `withFetchWord` writes the two bytes of the word there and nothing else. -/
theorem withFetchWord_of_fetchable {s : State} (hf : s.Fetchable) (w : Word) :
    s.withFetchWord 16 w.toNat = { s with mem := memSetBytes s.mem s.pc.toNat (bytesOfWord w) } := by
  have hin : s.pc.toNat + 1 < Config.memSize := Nat.succ_lt_succ (Nat.lt_succ_of_le hf)
  simp only [State.withFetchWord, if_pos hin, tableWord_toNat]

theorem memByte_memSetBytes_bytesOfWord (m : List Host.Cell) (a k : Nat) (w : Word) :
    memByte (memSetBytes m a (bytesOfWord w)) k =
      if k = a then w.extractLsb' 8 8 else if k = a + 1 then w.extractLsb' 0 8 else memByte m k := by
  simp only [bytesOfWord, memSetBytes, memByte_memSet]
  by_cases h : k = a
  · simp [h]
  · simp [h]

theorem fetch_withFetchWord {s : State} (hf : s.Fetchable) (w : Word) : fetch (s.withFetchWord 16 w.toNat) = .ok w := by
  have hf' : (s.withFetchWord 16 w.toNat).Fetchable := by rwa [withFetchWord_of_fetchable hf]
  rw [fetch_of_fetchable hf', State.wordAtPc, withFetchWord_of_fetchable hf, memByte_memSetBytes_bytesOfWord,
    memByte_memSetBytes_bytesOfWord, if_pos rfl, if_neg (Nat.succ_ne_self _), if_pos rfl, append_bytes_eq_word]

end Sys2Proof.Machine

namespace Sys2Proof.Proofs
open Sys2Proof.Machine

/-- Settles O6: each checked read has an equation per outcome of its checks. -/
theorem memReadChecksTheRange : Obligations.MemReadChecksTheRange := by
  refine fun m a => ⟨fun h => ?_, fun h => ?_, fun h => ?_, memRead2_of_first_out m, memRead2_of_second_out m⟩
  · rw [memRead1_eq, if_pos h]
  · rw [memRead1_eq, if_neg (Nat.not_lt.mpr h)]
  · exact ⟨_, memRead2_of_inRange m h, toNat_memWord m a⟩

/-- Settles O7: the fetched word is `wordAtPc`, and past 4094 the step is the fault of the fetch. -/
theorem fetchReadsTheWordAtPc : Obligations.FetchReadsTheWordAtPc := by
  refine fun s => ⟨fun hf => ⟨_, fetch_of_fetchable hf, toNat_memWord _ _⟩, fun hpc => ?_, fun hpc => ?_⟩
  · exact step_eq_fault_iff.mpr (.inl ⟨by omega, by rw [hpc]; rfl⟩)
  · exact step_eq_fault_iff.mpr (.inl ⟨by omega, by rw [Nat.max_eq_left hpc]⟩)

/-- Settles O8: a canonical list of cells is fixed by its reads below the size. -/
theorem memoriesThatReadAlikeAreEqual : Obligations.MemoriesThatReadAlikeAreEqual := fun _ _ => eq_of_cellsGet_eq

/-- Settles O9: the two bytes written at `pc` are read back as the word, and no third byte is written. -/
theorem storedFetchWordIsFetched : Obligations.StoredFetchWordIsFetched := by
  intro s w hf
  refine ⟨fetch_withFetchWord hf w, ?_⟩
  rw [withFetchWord_of_fetchable hf]
  exact ⟨fun a h h' => by rw [memByte_memSetBytes_bytesOfWord, if_neg h, if_neg h'], rfl⟩

end Sys2Proof.Proofs
end

section
/-! PROOF. The random number and the sprite draw (43_random.md R68; 44_sprite_draw.md R70 to R78): the loops of `Dxyn`
toggle a list of distinct cells, one for each bit of the sprite that is 1, and from that list follow the exclusive OR,
the collision flag and the two properties of drawing. -/

namespace Sys2Proof.Machine

/-! ### Toggling a list of cells -/

/-- Toggle the cells of a list, one after the other. -/
def toggleCells (cells : List (Nat × Nat)) (p : List Host.Cell × Bool) : List Host.Cell × Bool :=
  cells.foldl (fun q c => togglePixel c.1 c.2 q) p

theorem toggleCells_cons (c : Nat × Nat) (cells : List (Nat × Nat)) (p : List Host.Cell × Bool) :
    toggleCells (c :: cells) p = toggleCells cells (togglePixel c.1 c.2 p) := rfl

/-- The byte of a cell after it is toggled (44_sprite_draw.md R75). -/
def toggledByte (b : Byte) : Byte := if b ≠ 0#8 then 0#8 else 1#8

theorem toggledByte_ne_zero_iff {b : Byte} : toggledByte b ≠ 0#8 ↔ b = 0#8 := by
  by_cases h : b = 0#8 <;> simp [toggledByte, h]

theorem pixel_togglePixel_self (p : List Host.Cell × Bool) {px py : Nat} (hx : px < 64) :
    pixel (togglePixel px py p).1 px py = toggledByte (pixel p.1 px py) := by
  rw [pixel_togglePixel p hx hx, if_pos ⟨rfl, rfl⟩]
  rfl

theorem pixel_togglePixel_of_ne (p : List Host.Cell × Bool) {c d : Nat × Nat} (hd : d.1 < 64) (hc : c.1 < 64)
    (hne : c ≠ d) : pixel (togglePixel d.1 d.2 p).1 c.1 c.2 = pixel p.1 c.1 c.2 := by
  rw [pixel_togglePixel p hd hc, if_neg fun h => hne (Prod.ext h.1 h.2)]

section DistinctCells

variable {cells : List (Nat × Nat)}

theorem pixel_toggleCells_of_not_mem (hcols : ∀ c ∈ cells, c.1 < 64) {c : Nat × Nat} (hc : c.1 < 64) (hmem : c ∉ cells)
    (p : List Host.Cell × Bool) : pixel (toggleCells cells p).1 c.1 c.2 = pixel p.1 c.1 c.2 := by
  induction cells generalizing p with
  | nil => rfl
  | cons d cells ih =>
    obtain ⟨hd, hcells⟩ := List.forall_mem_cons.mp hcols
    rw [toggleCells_cons, ih hcells (List.not_mem_of_not_mem_cons hmem),
      pixel_togglePixel_of_ne p hd hc (List.ne_of_not_mem_cons hmem)]

theorem pixel_toggleCells_of_mem (hcols : ∀ c ∈ cells, c.1 < 64) (hnodup : cells.Nodup) {c : Nat × Nat}
    (hmem : c ∈ cells) (p : List Host.Cell × Bool) :
    pixel (toggleCells cells p).1 c.1 c.2 = toggledByte (pixel p.1 c.1 c.2) := by
  induction cells generalizing p with
  | nil => cases hmem
  | cons d cells ih =>
    obtain ⟨hd, hcells⟩ := List.forall_mem_cons.mp hcols
    obtain ⟨hnot, hnodup⟩ := List.nodup_cons.mp hnodup
    rw [toggleCells_cons]
    rcases List.mem_cons.mp hmem with rfl | hmem
    · rw [pixel_toggleCells_of_not_mem hcells hd hnot, pixel_togglePixel_self p hd]
    · have hne : c ≠ d := fun h => hnot (h ▸ hmem)
      rw [ih hcells hnodup hmem, pixel_togglePixel_of_ne p hd (hcells c hmem) hne]

/-- Distinct cells collide exactly when one of them was on before the first was toggled. -/
theorem hit_toggleCells_iff (hcols : ∀ c ∈ cells, c.1 < 64) (hnodup : cells.Nodup) (p : List Host.Cell × Bool) :
    (toggleCells cells p).2 = true ↔ p.2 = true ∨ ∃ c ∈ cells, pixel p.1 c.1 c.2 ≠ 0#8 := by
  induction cells generalizing p with
  | nil => simp [toggleCells]
  | cons d cells ih =>
    obtain ⟨hd, hcells⟩ := List.forall_mem_cons.mp hcols
    obtain ⟨hnot, hnodup⟩ := List.nodup_cons.mp hnodup
    have hrest : (∃ c ∈ cells, pixel (togglePixel d.1 d.2 p).1 c.1 c.2 ≠ 0#8) ↔
        ∃ c ∈ cells, pixel p.1 c.1 c.2 ≠ 0#8 := by
      refine exists_congr fun c => and_congr_right fun hc => ?_
      rw [pixel_togglePixel_of_ne p hd (hcells c hc) fun h => hnot (h ▸ hc)]
    rw [toggleCells_cons, ih hcells hnodup, hrest, hit_togglePixel, Bool.or_eq_true, decide_eq_true_iff,
      List.exists_mem_cons_iff, or_assoc, or_left_comm]

end DistinctCells

/-! ### The cells of a sprite -/

/-- The cells the bits of a sprite fall on, row by row and from the left. -/
def spriteCells (ox oy : Byte) (rows : Nat → Byte) (n : Nat) : List (Nat × Nat) :=
  (List.range n).flatMap fun row =>
    ((List.range Config.spriteW).filter (spriteBit (rows row))).map fun col => (pixelCol ox col, pixelRow oy row)

theorem drawSprite_eq_toggleCells (ox oy : Byte) (rows : Nat → Byte) (n : Nat) (p : List Host.Cell × Bool) :
    drawSprite ox oy rows n p = toggleCells (spriteCells ox oy rows n) p := by
  simp only [drawSprite, drawRow, toggleCells, spriteCells, List.foldl_flatMap, List.foldl_map, List.foldl_filter]

theorem pixelCol_inj {ox : Byte} {col col' : Nat} (h : col < 8) (h' : col' < 8)
    (heq : pixelCol ox col = pixelCol ox col') : col = col' := by
  simp only [pixelCol, Config.fbW] at heq
  omega

theorem pixelRow_inj {oy : Byte} {row row' : Nat} (h : row < 15) (h' : row' < 15)
    (heq : pixelRow oy row = pixelRow oy row') : row = row' := by
  simp only [pixelRow, Config.fbH] at heq
  omega

theorem mem_spriteCells {ox oy : Byte} {rows : Nat → Byte} {n : Nat} {c : Nat × Nat} :
    c ∈ spriteCells ox oy rows n ↔ ∃ row col, row < n ∧ col < 8 ∧ spriteBit (rows row) col = true ∧
      c.1 = pixelCol ox col ∧ c.2 = pixelRow oy row := by
  simp only [spriteCells, List.mem_flatMap, List.mem_map, List.mem_filter, List.mem_range]
  constructor
  · rintro ⟨row, hrow, col, ⟨hcol, hbit⟩, rfl⟩
    exact ⟨row, col, hrow, hcol, hbit, rfl, rfl⟩
  · rintro ⟨row, col, hrow, hcol, hbit, hx, hy⟩
    exact ⟨row, hrow, col, ⟨hcol, hbit⟩, Prod.ext hx.symm hy.symm⟩

theorem spriteCells_col_lt {ox oy : Byte} {rows : Nat → Byte} {n : Nat} {c : Nat × Nat}
    (h : c ∈ spriteCells ox oy rows n) : c.1 < 64 := by
  obtain ⟨_, col, -, -, -, hc, -⟩ := mem_spriteCells.mp h
  exact hc ▸ pixelCol_lt ox col

/-- No cell is listed twice (44_sprite_draw.md R78): columns of one row differ, and so do rows. -/
theorem spriteCells_nodup (ox oy : Byte) (rows : Nat → Byte) {n : Nat} (hn : n ≤ 15) :
    (spriteCells ox oy rows n).Nodup := by
  refine List.nodup_flatMap.mpr ⟨fun row _ => ?sameRow, ?otherRows⟩
  case sameRow =>
    refine (List.nodup_range.filter _).map_on fun col hcol col' hcol' heq => ?_
    have hlt := List.mem_range.mp (List.mem_of_mem_filter hcol)
    have hlt' := List.mem_range.mp (List.mem_of_mem_filter hcol')
    exact pixelCol_inj hlt hlt' (congrArg Prod.fst heq)
  case otherRows =>
    refine List.nodup_range.imp_of_mem fun {row row'} hrow hrow' hne => ?_
    have hlt := List.mem_range.mp hrow
    have hlt' := List.mem_range.mp hrow'
    rintro c hc hc'
    obtain ⟨_, -, rfl⟩ := List.mem_map.mp hc
    obtain ⟨_, -, heq⟩ := List.mem_map.mp hc'
    exact hne (pixelRow_inj (by omega) (by omega) (congrArg Prod.snd heq).symm)

/-! ### What a draw does to the screen and to `VF` -/

section Draw

variable {s : State} {x y n : Nibble}

theorem spriteCovers_iff {px py : Nat} :
    SpriteCovers s x y n px py ↔ (px, py) ∈ spriteCells (s.getV x) (s.getV y) (spriteRow s) n.toNat :=
  (mem_spriteCells (c := (px, py))).symm

theorem spriteCovers_lt {px py : Nat} (h : SpriteCovers s x y n px py) : px < 64 ∧ py < 32 := by
  obtain ⟨row, col, -, -, -, rfl, rfl⟩ := h
  exact ⟨pixelCol_lt _ col, pixelRow_lt _ row⟩

theorem spriteDrawn_eq_toggleCells (x y n : Nibble) (s : State) :
    spriteDrawn x y n s = toggleCells (spriteCells (s.getV x) (s.getV y) (spriteRow s) n.toNat) (s.fb, false) :=
  drawSprite_eq_toggleCells _ _ _ _ _

theorem spriteCells_nibble_nodup (ox oy : Byte) (rows : Nat → Byte) (n : Nibble) :
    (spriteCells ox oy rows n.toNat).Nodup :=
  spriteCells_nodup ox oy rows (Nat.le_of_lt_succ n.isLt)

theorem pixel_drawnState_of_covers {px py : Nat} (h : SpriteCovers s x y n px py) :
    pixel (drawnState x y n s).fb px py = toggledByte (pixel s.fb px py) := by
  have hmem := spriteCovers_iff.mp h
  have heq := pixel_toggleCells_of_mem (fun _ => spriteCells_col_lt) (spriteCells_nibble_nodup _ _ _ n) hmem (s.fb, false)
  rw [← spriteDrawn_eq_toggleCells] at heq
  exact heq

theorem pixel_drawnState_of_not_covers {px py : Nat} (hx : px < 64) (h : ¬ SpriteCovers s x y n px py) :
    pixel (drawnState x y n s).fb px py = pixel s.fb px py := by
  have hmem := fun hm => h (spriteCovers_iff.mpr hm)
  have heq := pixel_toggleCells_of_not_mem (c := (px, py)) (fun _ => spriteCells_col_lt) hx hmem (s.fb, false)
  rw [← spriteDrawn_eq_toggleCells] at heq
  exact heq

theorem hit_spriteDrawn_iff : (spriteDrawn x y n s).2 = true ↔
    ∃ px py, SpriteCovers s x y n px py ∧ pixel s.fb px py ≠ 0#8 := by
  rw [spriteDrawn_eq_toggleCells, hit_toggleCells_iff (fun _ => spriteCells_col_lt) (spriteCells_nibble_nodup _ _ _ n)]
  simp only [spriteCovers_iff, Prod.exists, Bool.false_eq_true, false_or]

/-- Only `VF` is written among the registers, with the collision flag. -/
theorem getV_drawnState (x y n r : Nibble) (s : State) : (drawnState x y n s).getV r =
    if r = 0xF#4 then collisionByte (spriteDrawn x y n s).2 else s.getV r :=
  s.setCollision_getV (spriteDrawn x y n s).2 r

theorem vf_drawnState (x y n : Nibble) (s : State) :
    (drawnState x y n s).getV 0xF#4 = collisionByte (spriteDrawn x y n s).2 :=
  (getV_drawnState x y n 0xF#4 s).trans (if_pos rfl)

theorem vf_drawnState_of_hit (h : ∃ px py, SpriteCovers s x y n px py ∧ pixel s.fb px py ≠ 0#8) :
    (drawnState x y n s).getV 0xF#4 = 1#8 := by
  rw [vf_drawnState, hit_spriteDrawn_iff.mpr h]
  rfl

theorem vf_drawnState_of_no_hit (h : ∀ px py, SpriteCovers s x y n px py → pixel s.fb px py = 0#8) :
    (drawnState x y n s).getV 0xF#4 = 0#8 := by
  have hno : (spriteDrawn x y n s).2 = false := by
    rw [← Bool.not_eq_true, hit_spriteDrawn_iff]
    exact fun ⟨px, py, hc, hne⟩ => hne (h px py hc)
  rw [vf_drawnState, hno]
  rfl

theorem getV_drawnState_of_ne {r : Nibble} (h : r ≠ 0xF#4) : (drawnState x y n s).getV r = s.getV r :=
  (getV_drawnState x y n r s).trans (if_neg h)

/-- At an origin `VF` does not hold, the sprite of a second draw covers the cells of the first. -/
theorem spriteCovers_drawnState (hx : x ≠ 0xF#4) (hy : y ≠ 0xF#4) (px py : Nat) :
    SpriteCovers (drawnState x y n s) x y n px py ↔ SpriteCovers s x y n px py := by
  rw [spriteCovers_iff, spriteCovers_iff, getV_drawnState_of_ne hx, getV_drawnState_of_ne hy]
  rfl

/-- A draw that answers a next state was in bounds, and the state is the drawn one. -/
theorem exec_drw_eq_next {t : State} (h : exec (.drw x y n) s = .next t) : t = drawnState x y n s := by
  rcases Nat.lt_or_ge 4096 (s.i.toNat + n.toNat) with hout | hin
  · rw [exec_drw_of_outOfBounds hout] at h; cases h
  · exact Host.Outcome.next.inj (h.symm.trans (exec_drw_of_inBounds hin))

end Draw

/-- A row of eight lit bits at column 63 of row 0 covers column 63 and columns 0 to 6 of row 0. -/
theorem spriteCovers_full_row_at_63 {x y : Nibble} {s : State} (hx : (s.getV x).toNat = 63) (hy : (s.getV y).toNat = 0)
    (hrow : memByte s.mem s.i.toNat = 0xFF#8) (px py : Nat) :
    SpriteCovers s x y 1#4 px py ↔ py = 0 ∧ (px = 63 ∨ px ≤ 6) := by
  have hbits : ∀ col < 8, (0xFF#8).getLsbD (7 - col) = true := by decide
  constructor
  · rintro ⟨row, col, hr, hc, -, rfl, rfl⟩
    have hr1 : row < 1 := hr
    omega
  · rintro ⟨rfl, hpx⟩
    have hcol : (px + 1) % 64 < 8 := by omega
    refine ⟨0, (px + 1) % 64, by decide, hcol, ?_, by omega, by omega⟩
    rw [Nat.add_zero, hrow]
    exact hbits _ hcol

end Sys2Proof.Machine

namespace Sys2Proof.Proofs
open Sys2Proof.Machine

/-- Settles O15: the byte written is the draw under the mask, and a masked byte has no bit outside it. -/
theorem rndMasksTheDraw : Obligations.RndMasksTheDraw := by
  intro x nn s
  have hmask : s.nextDraw &&& nn &&& ~~~nn = 0#8 := by
    rw [BitVec.and_assoc, BitVec.and_not_self]
    exact BitVec.and_zero
  have hle : (s.nextDraw &&& nn).toNat ≤ nn.toNat := BitVec.toNat_and _ nn ▸ Nat.and_le_right
  obtain ⟨hx, hothers, -⟩ := setV_advance_effect s x (s.nextDraw &&& nn) 2#16
  refine ⟨_, exec_rnd x nn s, hx, ?_, ?_, hothers, rfl⟩
  · exact (congrArg (· &&& ~~~nn) hx).trans hmask
  · exact (congrArg BitVec.toNat hx).trans_le hle

/-- Settles O16: the out-of-bounds equation of the draw, and a cycle returns the state its fault leaves. -/
theorem drwOutOfBoundsFaults : Obligations.DrwOutOfBoundsFaults :=
  ⟨fun _ _ _ _ => exec_drw_of_outOfBounds,
    fun _ hf hop hout => cycle_of_exec_fault hf (exec_decodeWord_eq_fault_of_outOfBounds hop hout)⟩

/-- Settles O17: the drawn state, its frame by definition and its `VF` from the collision flag. -/
theorem drwCompletesInBounds : Obligations.DrwCompletesInBounds := by
  intro x y n s hin
  have hvf : ∀ hit, collisionByte hit = 0#8 ∨ collisionByte hit = 1#8 := by decide
  refine ⟨drawnState x y n s, exec_drw_of_inBounds hin, fun r => getV_drawnState_of_ne, ?flag, rfl, rfl, fun a => rfl,
    ?noRows⟩
  case flag =>
    rw [vf_drawnState]
    exact hvf _
  case noRows =>
    rintro rfl
    exact ⟨rfl, vf_drawnState_of_no_hit fun px py ⟨_, _, hrow, _⟩ => absurd hrow (Nat.not_lt_zero _)⟩

/-- Settles O18: the draw toggles exactly the covered cells, and it collides when one of them was lit. -/
theorem drwXorsTheSpriteIntoTheFramebuffer : Obligations.DrwXorsTheSpriteIntoTheFramebuffer := by
  intro x y n s t h
  obtain rfl := exec_drw_eq_next h
  refine ⟨fun px py hx _ => ⟨pixel_drawnState_of_covers, pixel_drawnState_of_not_covers hx⟩, ?collision, ?noCollision⟩
  case collision =>
    rintro ⟨px, py, -, -, hc, hlit⟩
    exact vf_drawnState_of_hit ⟨px, py, hc, hlit⟩
  case noCollision =>
    intro hoff
    refine vf_drawnState_of_no_hit fun px py hc => ?_
    obtain ⟨hx, hy⟩ := spriteCovers_lt hc
    exact hoff px py hx hy hc

/-- Settles O19: a place in the row-major array fixes column and row, and each of those fixes the sprite's own. -/
theorem noCellIsTouchedTwice : Obligations.NoCellIsTouchedTwice := by
  intro ox oy row row' col col' hrow hrow' hcol hcol' h
  obtain ⟨hx, hy⟩ := (fbIndex_inj (pixelCol_lt ox col) (pixelCol_lt ox col')).mp h
  exact ⟨pixelRow_inj hrow hrow' hy, pixelCol_inj hcol hcol' hx⟩

/-- Settles O20: the two draws cover the same cells, so each covered cell is toggled twice and each other one never. -/
theorem drawingTwiceRestoresTheScreen : Obligations.DrawingTwiceRestoresTheScreen := by
  intro x y n s t u hx hy ht hu
  obtain rfl := exec_drw_eq_next ht
  obtain rfl := exec_drw_eq_next hu
  have hsame := spriteCovers_drawnState (s := s) (n := n) hx hy
  have hcovered {px py : Nat} (hc : SpriteCovers s x y n px py) :
      pixel (drawnState x y n (drawnState x y n s)).fb px py = toggledByte (toggledByte (pixel s.fb px py)) := by
    rw [pixel_drawnState_of_covers ((hsame px py).mpr hc), pixel_drawnState_of_covers hc]
  refine ⟨fun px py hpx _ => ?restored, fun hoff => ⟨?collides, fun px py hpx hpy hc => ?turnedOff⟩⟩
  case restored =>
    by_cases hc : SpriteCovers s x y n px py
    · rw [hcovered hc, toggledByte_ne_zero_iff, ← not_iff_not, ← ne_eq, toggledByte_ne_zero_iff, not_not]
    · rw [pixel_drawnState_of_not_covers hpx (mt (hsame px py).mp hc), pixel_drawnState_of_not_covers hpx hc]
  case collides =>
    rintro ⟨px, py, hpx, hpy, hc⟩
    refine vf_drawnState_of_hit ⟨px, py, (hsame px py).mpr hc, ?_⟩
    rw [pixel_drawnState_of_covers hc, toggledByte_ne_zero_iff]
    exact hoff px py hpx hpy hc
  case turnedOff =>
    rw [hcovered hc, hoff px py hpx hpy hc]
    rfl

/-- Settles O21: the covered cells of a full row at column 63, each toggled from off. -/
theorem spriteWrapsAtTheRightEdge : Obligations.SpriteWrapsAtTheRightEdge := by
  intro x y s t hfb hx hy hrow h px py hpx _
  obtain rfl := exec_drw_eq_next h
  have hoff : pixel s.fb px py = 0#8 := by rw [hfb, pixel_nil]
  rw [← spriteCovers_full_row_at_63 hx hy hrow]
  by_cases hc : SpriteCovers s x y 1#4 px py
  · rw [pixel_drawnState_of_covers hc, toggledByte_ne_zero_iff]
    exact iff_of_true hoff hc
  · rw [pixel_drawnState_of_not_covers hpx hc]
    exact iff_of_false (not_not.mpr hoff) hc

end Sys2Proof.Proofs
end

section
/-! PROOF. The cycle (40_cycle.md R54 to R60, 60_exceptions.md R80 to R87): the step function in full, its failures, the
program counter, the writers of each element, and the elements no cycle reads. -/

namespace Sys2Proof.Machine

/-! ### The tick -/

theorem toNat_countDown (b : Byte) : (countDown b).toNat = b.toNat - 1 := by
  by_cases hb : b = 0#8
  · rw [hb]
    rfl
  · rw [countDown, if_pos hb]
    bv_omega

/-! ### When a cycle completes, and what it returns -/

theorem completes_iff {s : State} : s.Completes ↔ s.Fetchable ∧ ∃ u, WordEffect s.wordAtPc s u := by
  constructor
  · rintro ⟨t, ht⟩
    obtain ⟨hf, u, hu, -⟩ := step_eq_next_iff.mp ht
    exact ⟨hf, u, hu⟩
  · rintro ⟨hf, u, hu⟩
    exact ⟨_, step_of_wordEffect hf hu⟩

theorem zext16_eq_append (nnn : Imm12) : zext16 nnn = 0x0#4 ++ nnn := BitVec.setWidth_eq_append (by decide)

/-- A completing cycle gives the two signals and the effect with both timers of `s` counted down. -/
theorem cycle_of_wordEffect {s u : State} (hf : s.Fetchable) (h : WordEffect s.wordAtPc s u) :
    cycle s = (.ok (decide (s.st ≠ 0#8)) (decide (s.st = 1#8)),
      { u with dt := if s.dt ≠ 0#8 then s.dt - 1#8 else s.dt, st := if s.st ≠ 0#8 then s.st - 1#8 else s.st }) := by
  obtain ⟨-, -, -, -, hdt, hst⟩ := h.frame
  rw [cycle_of_step_next (step_of_wordEffect hf h), tick, hdt, hst]
  rfl

/-- A fetch past the end of memory fails the cycle with the first address out of range. -/
theorem cycle_of_fetch_out {s : State} (h : 4094 < s.pc.toNat) :
    cycle s = (.err (.invalidAddress (max s.pc.toNat 4096)), s) :=
  cycle_of_step_fault (step_eq_fault_iff.mpr (.inl ⟨h, rfl⟩))

/-! ### What a failure and an effect depend on -/

/-- Whether and how a step fails depends on memory, `I` and `pc` alone. -/
theorem step_eq_fault_congr {s s' : State} (hmem : s'.mem = s.mem) (hi : s'.i = s.i) (hpc : s'.pc = s.pc) (e : Fault) :
    step s = .fault e ↔ step s' = .fault e := by
  rw [step_eq_fault_iff, step_eq_fault_iff, State.wordAtPc, State.wordAtPc, hmem, hi, hpc]

/-- Two states that agree on memory, the registers, `I`, `pc`, the framebuffer and the draw counter: what a cycle may
read. -/
def State.AgreesWith (s s' : State) : Prop :=
  s'.mem = s.mem ∧ s'.v = s.v ∧ s'.i = s.i ∧ s'.pc = s.pc ∧ s'.fb = s.fb ∧ s'.draws = s.draws

theorem State.AgreesWith.wordAtPc {s s' : State} (h : s.AgreesWith s') : s'.wordAtPc = s.wordAtPc := by
  obtain ⟨hmem, -, -, hpc, -⟩ := h
  rw [State.wordAtPc, State.wordAtPc, hmem, hpc]

theorem WordEffect.of_agreesWith {w : Word} {s s' u : State} (h : WordEffect w s u) (hs : s.AgreesWith s') :
    ∃ u', WordEffect w s' u' ∧ u.AgreesWith u' := by
  cases s
  cases s'
  obtain ⟨rfl, rfl, rfl, rfl, rfl, rfl⟩ := hs
  cases h with
  | jp hop => exact ⟨_, .jp hop, rfl, rfl, rfl, rfl, rfl, rfl⟩
  | skip hop heq => exact ⟨_, .skip hop heq, rfl, rfl, rfl, rfl, rfl, rfl⟩
  | noSkip hop hne => exact ⟨_, .noSkip hop hne, rfl, rfl, rfl, rfl, rfl, rfl⟩
  | ldVx hop => exact ⟨_, .ldVx hop, rfl, rfl, rfl, rfl, rfl, rfl⟩
  | add hop => exact ⟨_, .add hop, rfl, rfl, rfl, rfl, rfl, rfl⟩
  | ldI hop => exact ⟨_, .ldI hop, rfl, rfl, rfl, rfl, rfl, rfl⟩
  | rnd hop => exact ⟨_, .rnd hop, rfl, rfl, rfl, rfl, rfl, rfl⟩
  | drw hop hin => exact ⟨_, .drw hop hin, rfl, rfl, rfl, rfl, rfl, rfl⟩

/-- But for family C, an effect is the same at every value of the draw counter. -/
theorem WordEffect.with_draws {w : Word} {s u : State} (h : WordEffect w s u) (hop : w.toNat / 4096 ≠ 0xC) (d : Nat) :
    WordEffect w { s with draws := d } { u with draws := d } := by
  cases h with
  | jp hop => exact .jp hop
  | skip hop heq => exact .skip hop heq
  | noSkip hop hne => exact .noSkip hop hne
  | ldVx hop => exact .ldVx hop
  | add hop => exact .add hop
  | ldI hop => exact .ldI hop
  | rnd hC => exact absurd hC hop
  | drw hop hin => exact .drw hop hin

theorem randomize_getV_of_ne {d : Byte} {x r : Nibble} {nn : Byte} {s : State} (h : r ≠ x) :
    (randomize d x nn s).getV r = s.getV r :=
  s.getV_setV_ne x r _ h

/-! ### The writers of the registers -/

section Registers

variable {w : Word} {s u : State}

theorem WordEffect.v_eq (h : WordEffect w s u) (hop : w.toNat / 4096 ∈ [0x1, 0x3, 0xA]) : u.v = s.v := by
  cases h with
  | jp _ | skip _ _ | noSkip _ _ | ldI _ => rfl
  | ldVx h' | add h' | rnd h' | drw h' _ => simp [h'] at hop

theorem WordEffect.getV_of_ne_x (h : WordEffect w s u) (hop : w.toNat / 4096 ∈ [0x6, 0x7, 0xC]) {r : Nibble}
    (hr : r ≠ fieldX w) : u.getV r = s.getV r := by
  cases h with
  | ldVx _ | add _ => exact s.getV_setV_ne _ _ _ hr
  | rnd _ => exact randomize_getV_of_ne hr
  | jp h' | skip h' _ | noSkip h' _ | ldI h' | drw h' _ => simp [h'] at hop

theorem WordEffect.getV_of_ne_vf (h : WordEffect w s u) (hop : w.toNat / 4096 = 0xD) {r : Nibble} (hr : r ≠ 0xF#4) :
    u.getV r = s.getV r := by
  cases h with
  | drw _ _ => exact getV_drawnState_of_ne hr
  | jp h' | skip h' _ | noSkip h' _ | ldVx h' | add h' | ldI h' | rnd h' => omega

end Registers

/-- A failed cycle leaves the state for any number of further cycles. -/
theorem afterMoves_replicate_cycle {s : State} (font : Config.Font) (h : (cycle s).2 = s) (k : Nat) :
    afterMoves font (List.replicate k .cycle) s = s := by
  refine afterMoves_keeps font (· = s) (fun m hm t ht => ?_) rfl
  obtain rfl := List.eq_of_mem_replicate hm
  exact ht ▸ h

end Sys2Proof.Machine

namespace Sys2Proof.Proofs
open Sys2Proof.Machine

/-- Settles O23: the two bytes decode to the instruction of `wordAtPc`, which the step executes before its tick. -/
theorem stepRunsTheDecodedInstruction : Obligations.StepRunsTheDecodedInstruction := by
  intro s i hf hi
  obtain rfl : decodeWord s.wordAtPc = i := congrArg Prod.fst (Except.ok.inj hi)
  refine ⟨?step, fun t => ⟨rfl, toNat_countDown t.dt, toNat_countDown t.st⟩⟩
  case step =>
    rw [step_of_fetchable hf]
    cases exec (decodeWord s.wordAtPc) s <;> rfl

/-- Settles O24: the fetch out of range, the effect of each family, the draw out of bounds, and the unsupported
families, each against its line of the pseudocode. -/
theorem cycleIsTheStepFunction : Obligations.CycleIsTheStepFunction := by
  intro s
  refine ⟨s.nextDraw, s.draws + 1, ?_⟩
  intro w op x done
  rcases Nat.lt_or_ge 4094 s.pc.toNat with hgt | hf
  · by_cases hpc : s.pc.toNat ≥ 4096
    · rw [cycle_of_fetch_out hgt, if_pos hpc, Nat.max_eq_left hpc]
    · have hsecond : s.pc.toNat + 1 ≥ 4096 := by omega
      have hlast : max s.pc.toNat 4096 = s.pc.toNat + 1 := by omega
      rw [cycle_of_fetch_out hgt, if_neg hpc, if_pos hsecond, hlast]
  · have hfirst : ¬ s.pc.toNat ≥ 4096 := by omega
    have hsecond : ¬ s.pc.toNat + 1 ≥ 4096 := by omega
    rw [if_neg hfirst, if_neg hsecond]
    rcases wordEffect_or_fault w s with ⟨u, hu⟩ | ⟨hop, hout⟩ | hop
    · rw [cycle_of_wordEffect hf hu]
      cases hu with
      | jp hop | ldI hop =>
        simp only [op, hop, Nat.reduceEqDiff, if_true, if_false, ← zext16_eq_append]
        rfl
      | ldVx hop | add hop | rnd hop =>
        simp only [op, hop, Nat.reduceEqDiff, if_true, if_false]
        rfl
      | skip hop hcmp | noSkip hop hcmp =>
        simp only [op, x, hop, hcmp, Nat.reduceEqDiff, if_true, if_false]
        rfl
      | drw hop hin =>
        rw [← toNat_fieldN] at hin
        simp only [op, hop, Nat.reduceEqDiff, if_true, if_false, exec_drw_of_inBounds hin]
        rfl
    · rw [cycle_of_exec_fault hf (exec_decodeWord_eq_fault_of_outOfBounds hop hout)]
      rw [← toNat_fieldN] at hout
      simp only [op, hop, Nat.reduceEqDiff, if_true, if_false, exec_drw_of_outOfBounds hout]
    · rw [cycle_of_unsupported hf hop]
      have hne : op ∉ implementedFamilies := (mem_unsupportedFamilies_iff op (by omega)).mp hop
      simp only [implementedFamilies, List.mem_cons, List.not_mem_nil, or_false, not_or] at hne
      simp only [hne, if_false]
      rfl

/-- Settles O25: a completing step is a fetchable word with an effect, and the failures are `step_eq_fault_iff`. -/
theorem cycleFailsExactlyInThreeWays : Obligations.CycleFailsExactlyInThreeWays := fun _ =>
  ⟨completes_iff.trans (and_congr_right fun _ => exists_wordEffect_iff), fun _ => step_eq_fault_iff⟩

/-- Settles O26: no arm of the dispatch refuses, so no step and no cycle does. -/
theorem nothingIsRefused : Obligations.NothingIsRefused := by
  refine ⟨exec_ne_refused, fun s r => ⟨step_ne_refused s r, ?cycle⟩⟩
  case cycle =>
    cases h : step s with
    | next t => rw [cycle_of_step_next h]; nofun
    | fault e => rw [cycle_of_step_fault h]; nofun
    | refused r' => exact absurd h (step_ne_refused s r')

/-- Settles O27: the cycle returned its own state, and its failure does not depend on the draw counter. -/
theorem failedCycleIsAFixedPoint : Obligations.FailedCycleIsAFixedPoint := by
  intro s t e h
  obtain ⟨hstep, rfl⟩ := cycle_eq_err_iff.mp h
  refine ⟨rfl, fun font => afterMoves_replicate_cycle font (congrArg Prod.snd h), fun d => ?anyDraw⟩
  case anyDraw =>
    have hcongr := step_eq_fault_congr (s := t) (s' := { t with draws := d }) rfl rfl rfl e
    rw [cycle_of_step_fault (hcongr.mp hstep)]

/-- Settles O28: the three laws of `pc` after an effect; the tick keeps it. -/
theorem pcAfterACycle : Obligations.PcAfterACycle := by
  intro s t h
  obtain ⟨hf, u, hu, rfl⟩ := step_eq_next_iff.mp h
  exact ⟨hu.toNat_pc_of_jp, hu.toNat_pc_of_skip hf,
    fun hop hne => hu.toNat_pc_of_ne hf (by omega) fun _ => hne,
    fun hjp hse => hu.toNat_pc_of_ne hf hjp fun hop => absurd hop hse⟩

/-- Settles O29: an even step of `pc` keeps its parity, and a jump takes that of its target. -/
theorem evenPcStaysEven : Obligations.EvenPcStaysEven := by
  intro s t h heven
  obtain ⟨hjp, hskip, hnoSkip, hother⟩ := pcAfterACycle s t h
  by_cases hop1 : s.wordAtPc.toNat / 4096 = 0x1
  · have := hjp hop1
    omega
  · by_cases hop3 : s.wordAtPc.toNat / 4096 = 0x3
    · by_cases heq : s.getV (fieldX s.wordAtPc) = fieldNN s.wordAtPc
      · have := hskip hop3 heq
        omega
      · have := hnoSkip hop3 heq
        omega
    · have := hother hop1 hop3
      omega

/-- Settles O30: what each effect leaves unchanged; the tick writes the timers alone. -/
theorem eachElementHasItsOwnWriters : Obligations.EachElementHasItsOwnWriters := by
  intro s t h
  obtain ⟨-, u, hu, rfl⟩ := step_eq_next_iff.mp h
  obtain ⟨hmem, hstack, hsp, hkey, -, -⟩ := hu.frame
  exact ⟨⟨fun a => congrArg (memByte · a) hmem, hmem, hstack, hsp, hkey⟩, hu.i_eq, hu.fb_eq, hu.draws_eq, hu.v_eq,
    fun hop r => hu.getV_of_ne_x hop, fun hop r => hu.getV_of_ne_vf hop⟩

/-- Settles O31: the altered state agrees on what a cycle reads, so its effect agrees, and the effect keeps the rest. -/
theorem keysStackAndTimersAreNeverRead : Obligations.KeysStackAndTimersAreNeverRead := by
  intro s stack key sp dt st redraw alter
  have hagree : s.AgreesWith (alter s) := ⟨rfl, rfl, rfl, rfl, rfl, rfl⟩
  refine ⟨step_eq_fault_congr rfl rfl rfl, fun t h => ?next⟩
  case next =>
    obtain ⟨hf, u, hu, rfl⟩ := step_eq_next_iff.mp h
    obtain ⟨u', hu', hmem, hv, hi, hpc, hfb, hdraws⟩ := hu.of_agreesWith hagree
    obtain ⟨-, hstack, hsp, hkey, -, -⟩ := hu'.frame
    rw [← hagree.wordAtPc] at hu'
    exact ⟨tick u', step_of_wordEffect hf hu', hmem, hv, hi, hpc, hfb, hdraws, hstack, hkey, hsp⟩

/-- Settles O32: the effects but that of family C do not see the counter, and that one shows it in `V[x]` only. -/
theorem onlyRndSeesTheRandomSource : Obligations.OnlyRndSeesTheRandomSource := by
  intro s d
  refine ⟨step_eq_fault_congr rfl rfl rfl, fun t h hop => ?others, fun t h hop => ?rnd⟩
  case others =>
    obtain ⟨hf, u, hu, rfl⟩ := step_eq_next_iff.mp h
    exact step_of_wordEffect (s := { s with draws := d }) hf (hu.with_draws hop d)
  case rnd =>
    obtain ⟨hf, u, hu, rfl⟩ := step_eq_next_iff.mp h
    have hu' : WordEffect s.wordAtPc { s with draws := d } _ := .rnd hop
    refine ⟨_, step_of_wordEffect (s := { s with draws := d }) hf hu', fun r hr => ?_, ?_⟩
    · have hmem : s.wordAtPc.toNat / 4096 ∈ [0x6, 0x7, 0xC] := by simp [hop]
      exact (hu'.getV_of_ne_x hmem hr).trans (hu.getV_of_ne_x hmem hr).symm
    · cases hu with
      | rnd _ => rfl
      | jp h' | skip h' _ | noSkip h' _ | ldVx h' | add h' | ldI h' | drw h' _ => omega

end Sys2Proof.Proofs
end

section
/-! PROOF. The timers and the audio signals (60_exceptions.md R90, R91), and runs of completing cycles: the countdown,
the self-jump (41_control_flow.md R61), and a load followed by an add (42_register_ops.md R65). -/

namespace Sys2Proof.Machine

/-! ### The timers -/

theorem step_timers {s t : State} (h : step s = .next t) : t.dt = countDown s.dt ∧ t.st = countDown s.st := by
  obtain ⟨-, u, hu, rfl⟩ := step_eq_next_iff.mp h
  obtain ⟨-, -, -, -, hdt, hst⟩ := hu.frame
  exact ⟨congrArg countDown hdt, congrArg countDown hst⟩

theorem step_toNat_timers {s t : State} (h : step s = .next t) :
    t.dt.toNat = s.dt.toNat - 1 ∧ t.st.toNat = s.st.toNat - 1 := by
  obtain ⟨hdt, hst⟩ := step_timers h
  rw [hdt, hst, toNat_countDown, toNat_countDown]
  exact ⟨rfl, rfl⟩

/-- No effect reads a timer: with other values of both, it is the same but for them. -/
theorem WordEffect.with_timers {w : Word} {s u : State} (h : WordEffect w s u) (d e : Byte) :
    WordEffect w { s with dt := d, st := e } { u with dt := d, st := e } := by
  cases h with
  | jp hop => exact .jp hop
  | skip hop heq => exact .skip hop heq
  | noSkip hop hne => exact .noSkip hop hne
  | ldVx hop => exact .ldVx hop
  | add hop => exact .add hop
  | ldI hop => exact .ldI hop
  | rnd hop => exact .rnd hop
  | drw hop hin => exact .drw hop hin

/-- A timer that was not 0 counts down to 0 from 1 alone. -/
theorem countDown_eq_zero_iff {b : Byte} : b ≠ 0#8 ∧ countDown b = 0#8 ↔ b = 1#8 := by
  rw [ne_eq, ← BitVec.toNat_inj, ← BitVec.toNat_inj, ← BitVec.toNat_inj, toNat_countDown, BitVec.toNat_ofNat,
    BitVec.toNat_ofNat]
  omega

/-! ### Runs -/

theorem runsTo_zero_iff {s t : State} : s.RunsTo 0 t ↔ t = s :=
  ⟨fun h => (Host.Outcome.next.inj h).symm, fun h => congrArg Host.Outcome.next h.symm⟩

theorem runsTo_succ_iff {s t : State} {k : Nat} : s.RunsTo (k + 1) t ↔ ∃ u, step s = .next u ∧ u.RunsTo k t := by
  have hcore : Sys2Proof.core.step s = step s := rfl
  cases h : step s with
  | next u => simp [State.RunsTo, Host.Core.run, hcore, h]
  | fault e => simp [State.RunsTo, Host.Core.run, hcore, h]
  | refused r => simp [State.RunsTo, Host.Core.run, hcore, h]

/-! ### The self-jump -/

/-- A jump to its own address does nothing but end the cycle. -/
theorem step_of_selfJump {s : State} (hf : s.Fetchable) (hw : s.wordAtPc.toNat = 0x1000 + s.pc.toNat) :
    step s = .next (tick s) := by
  have hpc : s.pc.toNat ≤ 4094 := hf
  have htarget : zext16 (fieldNNN s.wordAtPc) = s.pc := by
    apply BitVec.eq_of_toNat_eq
    rw [toNat_zext16, toNat_fieldNNN]
    omega
  have heffect : WordEffect s.wordAtPc s (s.setPc (zext16 (fieldNNN s.wordAtPc))) := .jp (by omega)
  rw [htarget] at heffect
  exact step_of_wordEffect hf heffect

/-! ### A known instruction at `pc` -/

theorem step_of_encoded {s : State} {i : Instr} (hf : s.Fetchable) (hw : s.wordAtPc = encode i) :
    step s = endCycle (exec i s) := by
  rw [step_of_fetchable hf, hw, decodeWord_encode]

end Sys2Proof.Machine

namespace Sys2Proof.Proofs
open Sys2Proof.Machine

/-- Settles O33: the countdown of a completing step, the unchanged state of a failed cycle, and effects that neither
write nor read a timer. -/
theorem timersTickOncePerSuccessfulCycle : Obligations.TimersTickOncePerSuccessfulCycle := by
  refine ⟨fun s t => step_toNat_timers, fun s t e h => ?failed, fun i s t h => ?instruction, rfl, rfl⟩
  case failed =>
    obtain ⟨-, rfl⟩ := cycle_eq_err_iff.mp h
    exact ⟨rfl, rfl⟩
  case instruction =>
    have heffect := exec_eq_next_iff.mp h
    obtain ⟨-, -, -, -, hdt, hst⟩ := heffect.frame
    exact ⟨hdt, hst, fun d e => exec_eq_next_iff.mpr (heffect.with_timers d e)⟩

/-- Settles O34, by induction on the length of the run. -/
theorem timersCountDownOverARun : Obligations.TimersCountDownOverARun := by
  intro k
  induction k with
  | zero =>
    intro s t h
    obtain rfl := runsTo_zero_iff.mp h
    exact ⟨rfl, rfl⟩
  | succ k ih =>
    intro s t h
    obtain ⟨u, hstep, hrun⟩ := runsTo_succ_iff.mp h
    obtain ⟨hdt, hst⟩ := step_toNat_timers hstep
    obtain ⟨hdt', hst'⟩ := ih u t hrun
    omega

/-- Settles O35: the signals are read off the timer before its tick, which reaches 0 from 1 alone. -/
theorem audioSignalsFollowTheSoundTimer : Obligations.AudioSignalsFollowTheSoundTimer := by
  intro s t h
  have hstop : beepStop s = true ↔ s.st ≠ 0#8 ∧ t.st = 0#8 := by
    rw [(step_timers h).2, countDown_eq_zero_iff]
    exact decide_eq_true_iff
  have hactive : beepActive s = true ↔ s.st ≠ 0#8 := decide_eq_true_iff
  exact ⟨_, _, cycle_of_step_next h, hactive, hstop, fun hs => hactive.mpr (hstop.mp hs).1⟩

/-- Settles O36, by induction on the length of the run: each step is a tick, which keeps the jump at `pc`. -/
theorem selfJumpSpinsForEver : Obligations.SelfJumpSpinsForEver := by
  intro s hf hw k
  induction k generalizing s with
  | zero => exact ⟨s, runsTo_zero_iff.mpr rfl, rfl⟩
  | succ k ih =>
    obtain ⟨t, hrun, ht⟩ := ih (tick s) hf hw
    exact ⟨t, runsTo_succ_iff.mpr ⟨tick s, step_of_selfJump hf hw, hrun⟩, ht⟩

/-- Settles O37: two steps of known instructions, the second reading what the first wrote. -/
theorem loadThenAddSums : Obligations.LoadThenAddSums := by
  intro s x nn nn2 hpc hload hadd
  have hf : s.Fetchable := Nat.le_trans hpc (by decide)
  have hstep := step_of_encoded hf hload
  rw [exec_ldVx, endCycle_next] at hstep
  obtain ⟨t, ht⟩ : ∃ t, t = tick ((s.setV x nn).advance 2#16) := ⟨_, rfl⟩
  have htpc : t.pc.toNat = s.pc.toNat + 2 := ht ▸ toNat_pc_add (k := 2#16) hf (by decide)
  have htf : t.Fetchable := by rw [State.Fetchable, htpc]; omega
  have htx : t.getV x = nn := ht ▸ s.getV_setV_same x nn
  have htmem : t.mem = s.mem := ht ▸ rfl
  have htadd : t.wordAtPc = encode (.add x nn2) := by rw [State.wordAtPc, htmem, htpc]; exact hadd
  have hstep' := step_of_encoded htf htadd
  rw [exec_add, endCycle_next, htx] at hstep'
  refine ⟨_, runsTo_succ_iff.mpr ⟨t, ht ▸ hstep, runsTo_succ_iff.mpr ⟨_, hstep', runsTo_zero_iff.mpr rfl⟩⟩, ?sum, ?pc⟩
  case sum =>
    rw [tick_getV, State.advance_getV, State.getV_setV_same, BitVec.toNat_add]
  case pc =>
    rw [tick_pc, State.advance_pc, State.setV_pc, toNat_pc_add htf (by decide), htpc]
    rfl

end Sys2Proof.Proofs
end

section
/-! PROOF. `Init`, `Load` and the other host moves (70_reset_and_hazards.md R100 to R104, 10_state.md R26). -/

namespace Sys2Proof.Machine

theorem hostMove_init (font : Config.Font) (seed : Option Nat) (s : State) :
    hostMove font (.init seed) s = (.done, s.initWith font) := rfl

theorem initWith_initWith (font : Config.Font) (s : State) : (s.initWith font).initWith font = s.initWith font := rfl

theorem imageWf_iff {image : List Byte} : imageWf image = true ↔ image.length ≤ 3584 := decide_eq_true_iff

/-- The one move that answers `LoadError`, and what it leaves (60_exceptions.md R83; log 18). -/
theorem hostMove_load_of_tooLong (font : Config.Font) {image : List Byte} (h : 3584 < image.length) (s : State) :
    hostMove font (.load image) s = (.loadError, s) :=
  if_neg (mt imageWf_iff.mp (Nat.not_le.mpr h))

theorem readMem_ne_loadError (s : State) (a len : Nat) : readMem s a len ≠ .loadError := by
  unfold readMem
  split <;> nofun

theorem hostMove_eq_loadError_iff (font : Config.Font) (m : HostMove) (s : State) :
    (hostMove font m s).1 = .loadError ↔ ∃ image, m = .load image ∧ 3584 < image.length := by
  cases m with
  | load image =>
    rcases Nat.lt_or_ge 3584 image.length with h | h
    · simp [hostMove_load_of_tooLong font h, h]
    · simp [hostMove_load font h, Nat.not_lt.mpr h]
  | readMem a len => exact iff_of_false (readMem_ne_loadError s a len) (by simp)
  | init _ | cycle | keyWrite _ _ | redrawClear | timerPreset _ _ | readFB | readDraw => simp [hostMove]

/-! ### The read-only views -/

theorem getElem_memBytes (m : List Host.Cell) (a len k : Nat) (h : k < (memBytes m a len).length) :
    (memBytes m a len)[k] = memByte m (a + k) := by
  simp [memBytes]

theorem length_memBytes (m : List Host.Cell) (a len : Nat) : (memBytes m a len).length = len := by
  simp [memBytes]

theorem getElem?_fbBytes (fb : List Host.Cell) {px py : Nat} (hx : px < 64) (hy : py < 32) :
    (fbBytes fb)[py * 64 + px]? = some (pixel fb px py) := by
  have hk : py * 64 + px < Config.fbW * Config.fbH := fbIndex_lt hx hy
  rw [fbBytes, List.getElem?_map, List.getElem?_range hk]
  rfl

theorem length_fbBytes (fb : List Host.Cell) : (fbBytes fb).length = 2048 := by
  rw [fbBytes, List.length_map, List.length_range]
  rfl

end Sys2Proof.Machine

namespace Sys2Proof.Proofs
open Sys2Proof.Machine

/-- Settles O39: the laws of `Init` about memory, and that it reads nothing of the state but the draw counter. -/
theorem initGivesTheResetStateForEveryFont : Obligations.InitGivesTheResetStateForEveryFont := by
  refine ⟨fun font s => ⟨s.initWith font, hostMove_init font none s, initWith_eq_resetWith font s, ?_, ?_, ?_⟩,
    resetWith_defaultFont⟩
  · exact fun _ => memByte_initWith_font font s
  · exact fun _ => memByte_initWith_of_outside_font font s
  · rw [hostMove_init, initWith_initWith]

/-- Settles O40: the laws of `Load` about memory; every other element is that of `Init`, and so is memory when there is
no byte to write. -/
theorem loadPlacesTheImage : Obligations.LoadPlacesTheImage := by
  intro font image s hlen
  refine ⟨s.loadImage font image, hostMove_load font hlen s, ?image, ?outside, ?canonical, rfl, ?empty⟩
  case image => exact fun _ => memByte_loadImage_image font s
  case outside => exact fun _ => memByte_loadImage_of_outside_image font s
  case canonical => exact loadImage_memWf font (imageWf_iff.mpr hlen) s
  case empty =>
    rintro rfl
    rfl

/-- Settles O41: which move answers `LoadError`, and the equation of that move. -/
theorem tooLongLoadIsLoadError : Obligations.TooLongLoadIsLoadError := by
  refine fun font m s => ⟨hostMove_eq_loadError_iff font m s, fun h => ?untouched⟩
  case untouched =>
    obtain ⟨image, rfl, hlong⟩ := (hostMove_eq_loadError_iff font m s).mp h
    rw [hostMove_load_of_tooLong font hlong]

/-- Settles O42: each move's own equation, with the bytes of the two views read one by one. -/
theorem hostMovesWriteOnlyTheirOwn : Obligations.HostMovesWriteOnlyTheirOwn := by
  intro font s
  refine ⟨fun k b => ⟨_, rfl, fun j hj => ?key⟩, fun seed => rfl, rfl, fun d e => rfl, fun a len hin => ?readMem,
    ⟨_, rfl, length_fbBytes s.fb, fun px py => getElem?_fbBytes s.fb⟩, rfl⟩
  case key =>
    rw [Vector.getElem_set]
    simp only [eq_comm]
  case readMem =>
    have hmove : hostMove font (.readMem a len) s = (.bytes (memBytes s.mem a len), s) :=
      congrArg (·, s) (if_pos (.inl hin))
    exact ⟨_, hmove, length_memBytes s.mem a len, fun k hk => getElem_memBytes s.mem a len k hk⟩

end Sys2Proof.Proofs
end
